-- ==== Sys2Proof/Word.lean ====
section
/-! DEFINITION. The 32-bit word, the byte cell, the character and the text of an instruction (00_scope.md R3, R5, R15;
30_encoding.md R70). -/
namespace Sys2Proof

/-- A register value, an ALU operand or an address: a 32-bit pattern (00_scope.md R15). The spec's `s(v)` is
`v.toInt`, its `u(v)` is `v.toNat`. -/
abbrev Word := BitVec 32

/-- A byte cell of the store (10_state.md R31). -/
abbrev Byte := BitVec 8

/-- One character of an instruction text: an 8-bit code (30_encoding.md R70). -/
abbrev Char8 := BitVec 8

/-- An instruction text, or a part of one: a finite string of 8-bit characters (30_encoding.md R70). -/
abbrev Text := List Char8

/-- `wrap32(n)`: the 32-bit pattern congruent to the integer `n` modulo 2^32 (00_scope.md R15). -/
abbrev wrap32 (n : Int) : Word := BitVec.ofInt 32 n

end Sys2Proof
end

