-- ==== Sys2Proof/Config.lean ====
section
/-! DEFINITION. What is fixed for this hardware (00_scope.md R3, R4, R5). The spec leaves no result open, so there is no
free value here; its one open parameter, `BUCKET_COUNT`, is an argument of `createSession` and of `BucketStore.init`
(00_scope.md R4). -/
namespace Sys2Proof

/-- What an address that no instruction has written reads as: 0 (20_memory.md R44). -/
def Config.unlistedByte : Byte := 0#8

/-- The number of byte addresses: 2^32 (10_state.md R32, 20_memory.md R58). -/
def Config.addressCount : Nat := 4294967296

end Sys2Proof
end

