-- ==== Sys2Proof/Syntax.lean ====
section
/-! DEFINITION. The instructions: one constructor of `Instr` per row of spec/opcode_table.json, with the operands of the
Instruction Record (30_encoding.md R74, R78, R87). -/
namespace Sys2Proof

/-- A register index, 0 to 31: the 5-bit index of 10_state.md R24. -/
abbrev RegIndex := Fin 32

/-- The classification of a mnemonic (30_encoding.md R73). -/
inductive Shape where
  | registerRegister | registerImmediate | memory | upperImmediate | unknown
  deriving DecidableEq, Repr

/-- The eighteen recognised mnemonics (30_encoding.md R74). -/
inductive Mnemonic where
  | add | sub | and | or | xor | slt | sll | sra
  | addi | andi | ori | xori | slti
  | lw | lb | sw | sb
  | lui
  deriving DecidableEq, Repr

/-- The set of 30_encoding.md R74 that a recognised mnemonic belongs to. -/
def Mnemonic.shape : Mnemonic → Shape
  | .add | .sub | .and | .or | .xor | .slt | .sll | .sra => .registerRegister
  | .addi | .andi | .ori | .xori | .slti => .registerImmediate
  | .lw | .lb | .sw | .sb => .memory
  | .lui => .upperImmediate

/-- A decoded instruction. The operand names are those of 30_encoding.md R87: `imm` is the immediate already
sign-extended (Register-Immediate) or zero-extended (Upper-Immediate), `offset` the 32-bit offset. In `sw` and `sb`
the register called `rd` is the value register (42_memory_access.md R145). -/
inductive Instr where
  | add (rd rs1 rs2 : RegIndex)
  | sub (rd rs1 rs2 : RegIndex)
  | and (rd rs1 rs2 : RegIndex)
  | or (rd rs1 rs2 : RegIndex)
  | xor (rd rs1 rs2 : RegIndex)
  | slt (rd rs1 rs2 : RegIndex)
  | sll (rd rs1 rs2 : RegIndex)
  | sra (rd rs1 rs2 : RegIndex)
  | addi (rd rs1 : RegIndex) (imm : Word)
  | andi (rd rs1 : RegIndex) (imm : Word)
  | ori (rd rs1 : RegIndex) (imm : Word)
  | xori (rd rs1 : RegIndex) (imm : Word)
  | slti (rd rs1 : RegIndex) (imm : Word)
  | lw (rd : RegIndex) (offset : Word) (rs1 : RegIndex)
  | lb (rd : RegIndex) (offset : Word) (rs1 : RegIndex)
  | sw (rd : RegIndex) (offset : Word) (rs1 : RegIndex)
  | sb (rd : RegIndex) (offset : Word) (rs1 : RegIndex)
  | lui (rd : RegIndex) (imm : Word)
  deriving DecidableEq, Repr

/-- The `op` field of the Instruction Record (30_encoding.md R87). -/
def Instr.mnemonic : Instr → Mnemonic
  | .add _ _ _ => .add
  | .sub _ _ _ => .sub
  | .and _ _ _ => .and
  | .or _ _ _ => .or
  | .xor _ _ _ => .xor
  | .slt _ _ _ => .slt
  | .sll _ _ _ => .sll
  | .sra _ _ _ => .sra
  | .addi _ _ _ => .addi
  | .andi _ _ _ => .andi
  | .ori _ _ _ => .ori
  | .xori _ _ _ => .xori
  | .slti _ _ _ => .slti
  | .lw _ _ _ => .lw
  | .lb _ _ _ => .lb
  | .sw _ _ _ => .sw
  | .sb _ _ _ => .sb
  | .lui _ _ => .lui

/-- The `shape` field of the Instruction Record (30_encoding.md R87). -/
def Instr.shape (i : Instr) : Shape := i.mnemonic.shape

end Sys2Proof
end

