-- ==== Sys2Proof/WellFormed.lean ====
section
/-! DEFINITION. Which instructions a text can stand for: the ranges of the decoded immediates (30_encoding.md R84, R86;
41_register_immediate.md R135). Register indexes and the offset are in range by their types. -/
namespace Sys2Proof

/-- A Register-Immediate immediate is a sign-extended 12-bit value: `s(imm)` is in -2048 to 2047
(41_register_immediate.md R135). -/
def fitsImm12 (imm : Word) : Bool := decide (-2048 ≤ imm.toInt) && decide (imm.toInt ≤ 2047)

/-- An Upper-Immediate immediate is a zero-extended 20-bit value (30_encoding.md R86). -/
def fitsImm20 (imm : Word) : Bool := decide (imm.toNat ≤ 0xFFFFF)

/-- The instruction is one that some text decodes to. -/
def Instr.wellFormed : Instr → Bool
  | .add _ _ _ => true
  | .sub _ _ _ => true
  | .and _ _ _ => true
  | .or _ _ _ => true
  | .xor _ _ _ => true
  | .slt _ _ _ => true
  | .sll _ _ _ => true
  | .sra _ _ _ => true
  | .addi _ _ imm => fitsImm12 imm
  | .andi _ _ imm => fitsImm12 imm
  | .ori _ _ imm => fitsImm12 imm
  | .xori _ _ imm => fitsImm12 imm
  | .slti _ _ imm => fitsImm12 imm
  | .lw _ _ _ => true
  | .lb _ _ _ => true
  | .sw _ _ _ => true
  | .sb _ _ _ => true
  | .lui _ imm => fitsImm20 imm

end Sys2Proof
end

