-- ==== Sys2Proof/Decode.lean ====
section
/-! DEFINITION. The instruction decoder (30_encoding.md R70 to R92), total on every text and rejecting by name; after it
the encoder, which writes the customary spelling (R90); then the reading of a word of spec/opcode_table.json. -/
namespace Sys2Proof

/-! ### Character codes (30_encoding.md R70) -/

/-- `SP`, the only space (R76). -/
def chSpace : Char8 := 0x20#8
def chOpen : Char8 := 0x28#8
def chClose : Char8 := 0x29#8
def chComma : Char8 := 0x2C#8
def chMinus : Char8 := 0x2D#8
def chZero : Char8 := 0x30#8
def chLowerX : Char8 := 0x78#8
def chNul : Char8 := 0x00#8

/-- Why `execute` has no meaning for a text: the reasons of 60_exceptions.md R179 that decoding can give, and one more
for the code 0x00. Every one stands for input that the source calls undefined, and each is SAFE: the model has no next
state for it. The decoder raises them. -/
inductive DecodeRefusal where
  /-- The text holds the character code 0x00 (30_encoding.md R70, 93_implementation_defined.md U16). Safe. -/
  | nulCharacter
  /-- The text holds no `SP`; the empty text is one such (R72). Safe. -/
  | noSeparator
  /-- The first character of the text is `SP` (R72). Safe. -/
  | emptyMnemonic
  /-- Recognised mnemonic, wrong number of operand fields (R77). Safe. -/
  | operandCount
  /-- A token is not of the form its slot requires (R80 to R83). Safe. -/
  | badToken
  /-- A register token's number exceeds 31 (R80). Safe. -/
  | registerIndexOutOfRange
  /-- A number does not fit 32 bits signed, or not the range of its field (R82, R84, R86). Safe. -/
  | immediateOutOfRange
  deriving DecidableEq, Repr

/-- The three results of decoding (30_encoding.md R71, 44_unknown.md R169). -/
inductive Decoded where
  | skip
  | refuse (reason : DecodeRefusal)
  | instr (i : Instr)
  deriving DecidableEq, Repr

/-! ### Splitting and classifying (R72 to R74) -/

/-- The text before its first `SP` and the text after it; none where there is no `SP` (R72). -/
def splitAtSpace : Text → Option (Text × Text)
  | [] => none
  | c :: cs =>
    if c = chSpace then some ([], cs)
    else (splitAtSpace cs).map fun p => (c :: p.1, p.2)

/-- The characters of a mnemonic: the rows of spec/opcode_table.json without their closing `SP` (R74). -/
def mnemonicText : Mnemonic → Text
  | .add => [0x61#8, 0x64#8, 0x64#8]
  | .sub => [0x73#8, 0x75#8, 0x62#8]
  | .and => [0x61#8, 0x6E#8, 0x64#8]
  | .or => [0x6F#8, 0x72#8]
  | .xor => [0x78#8, 0x6F#8, 0x72#8]
  | .slt => [0x73#8, 0x6C#8, 0x74#8]
  | .sll => [0x73#8, 0x6C#8, 0x6C#8]
  | .sra => [0x73#8, 0x72#8, 0x61#8]
  | .addi => [0x61#8, 0x64#8, 0x64#8, 0x69#8]
  | .andi => [0x61#8, 0x6E#8, 0x64#8, 0x69#8]
  | .ori => [0x6F#8, 0x72#8, 0x69#8]
  | .xori => [0x78#8, 0x6F#8, 0x72#8, 0x69#8]
  | .slti => [0x73#8, 0x6C#8, 0x74#8, 0x69#8]
  | .lw => [0x6C#8, 0x77#8]
  | .lb => [0x6C#8, 0x62#8]
  | .sw => [0x73#8, 0x77#8]
  | .sb => [0x73#8, 0x62#8]
  | .lui => [0x6C#8, 0x75#8, 0x69#8]

/-- The eighteen mnemonics, set by set (R74). -/
def allMnemonics : List Mnemonic :=
  [.add, .sub, .and, .or, .xor, .slt, .sll, .sra] ++ [.addi, .andi, .ori, .xori, .slti] ++
    [.lw, .lb, .sw, .sb] ++ [.lui]

/-- The recognised mnemonic that a string of characters spells, by exact comparison (R73). -/
def mnemonicOf (mn : Text) : Option Mnemonic :=
  allMnemonics.find? fun m => decide (mnemonicText m = mn)

/-- `Classify(mn)` (R73). -/
def classify (mn : Text) : Shape :=
  match mnemonicOf mn with
  | some m => m.shape
  | none => .unknown

/-! ### Cleaning and tokenizing (R76, R77) -/

/-- The second pass of `Clean`: each `,`, `(` and `)` becomes one `SP` (R76). -/
def separatorToSpace (c : Char8) : Char8 :=
  if c = chComma ∨ c = chOpen ∨ c = chClose then chSpace else c

/-- `Clean(rem)`: every `SP` deleted, then every separator turned into `SP` (R76). -/
def clean (rem : Text) : Text :=
  (rem.filter fun c => decide (c ≠ chSpace)).map separatorToSpace

/-- `Fields(c)`: split at every single `SP`; a string with `k` spaces has `k+1` fields (R77). -/
def fields : Text → List Text
  | [] => [[]]
  | c :: cs =>
    if c = chSpace then [] :: fields cs
    else
      match fields cs with
      | f :: fs => (c :: f) :: fs
      | [] => [[c]]

/-- Three non-empty tokens and nothing after them (R77). -/
def slots3 : List Text → Except DecodeRefusal (Text × Text × Text)
  | a :: b :: c :: rest =>
    if a.isEmpty || b.isEmpty || c.isEmpty || rest.any (fun f => !f.isEmpty) then .error .operandCount
    else .ok (a, b, c)
  | _ => .error .operandCount

/-- Two non-empty tokens and nothing after them (R77). -/
def slots2 : List Text → Except DecodeRefusal (Text × Text)
  | a :: b :: rest =>
    if a.isEmpty || b.isEmpty || rest.any (fun f => !f.isEmpty) then .error .operandCount
    else .ok (a, b)
  | _ => .error .operandCount

/-! ### Token values (R79 to R83) -/

/-- The value of a decimal digit, `0` to `9`. -/
def decimalDigit (c : Char8) : Option Nat :=
  if 0x30 ≤ c.toNat ∧ c.toNat ≤ 0x39 then some (c.toNat - 0x30) else none

/-- The value of a hexadecimal digit, `0-9`, `a-f`, `A-F` (R81). -/
def hexDigit (c : Char8) : Option Nat :=
  if 0x30 ≤ c.toNat ∧ c.toNat ≤ 0x39 then some (c.toNat - 0x30)
  else if 0x41 ≤ c.toNat ∧ c.toNat ≤ 0x46 then some (c.toNat - 0x41 + 10)
  else if 0x61 ≤ c.toNat ∧ c.toNat ≤ 0x66 then some (c.toNat - 0x61 + 10)
  else none

/-- The number that digits spell after the number `acc`, most significant digit first; none at a character that is no
digit. -/
def digitsFrom (base : Nat) (digit : Char8 → Option Nat) : Nat → Text → Option Nat
  | acc, [] => some acc
  | acc, c :: cs =>
    match digit c with
    | some d => digitsFrom base digit (acc * base + d) cs
    | none => none

/-- The number that one or more digits spell, and nothing else. -/
def digitsValue (base : Nat) (digit : Char8 → Option Nat) : Text → Option Nat
  | [] => none
  | c :: cs => digitsFrom base digit 0 (c :: cs)

/-- `Reg(t)` (R80). -/
def reg : Text → Except DecodeRefusal RegIndex
  | [] => .error .badToken
  | c :: ds =>
    if c = chLowerX then
      match digitsValue 10 decimalDigit ds with
      | none => .error .badToken
      | some n => if h : n < 32 then .ok ⟨n, h⟩ else .error .registerIndexOutOfRange
    else .error .badToken

/-- An unsigned number token: `0x` and hexadecimal digits (R81), or decimal digits (R82). -/
def magnitude (t : Text) : Option Nat :=
  match t with
  | z :: x :: ds =>
    if z = chZero ∧ x = chLowerX then digitsValue 16 hexDigit ds
    else digitsValue 10 decimalDigit t
  | _ => digitsValue 10 decimalDigit t

/-- A number token with its optional `-` (R81, R82), before any range check. -/
def signedNumber : Text → Option Int
  | [] => none
  | c :: cs =>
    if c = chMinus then (magnitude cs).map fun (n : Nat) => -(n : Int)
    else (magnitude (c :: cs)).map fun (n : Nat) => (n : Int)

/-- `Num(t)`: a number that fits 32 bits signed (R81, R82). -/
def num (t : Text) : Except DecodeRefusal Int :=
  match signedNumber t with
  | none => .error .badToken
  | some v => if -2147483648 ≤ v ∧ v ≤ 2147483647 then .ok v else .error .immediateOutOfRange

/-! ### Immediates (R84 to R86) -/

/-- Bit 11 set: the bits above it are filled by OR-ing with 0xFFFFF000; otherwise unchanged (R84). -/
def signExtend12 (w : Word) : Word :=
  if w.getLsbD 11 then w ||| 0xFFFFF000#32 else w

/-- `Imm12(v)` (R84). -/
def imm12 (v : Int) : Except DecodeRefusal Word :=
  if -2048 ≤ v ∧ v ≤ 4095 then .ok (signExtend12 (wrap32 v)) else .error .immediateOutOfRange

/-- `Off32(v)`: the value as it stands (R85). -/
def off32 (v : Int) : Except DecodeRefusal Word := .ok (wrap32 v)

/-- `Imm20(v)` (R86). -/
def imm20 (v : Int) : Except DecodeRefusal Word :=
  if 0 ≤ v ∧ v ≤ 0xFFFFF then .ok (wrap32 v) else .error .immediateOutOfRange

/-! ### The four operand formats (R71, R78)

The slots are read in the order A, B, C, and a number is checked for its form, then for its 32-bit range, then for the
range of its field, so that the reason reported is the first failing check (60_exceptions.md R177). -/

/-- `op rd, rs1, rs2`. -/
def registerRegisterFormat (mk : RegIndex → RegIndex → RegIndex → Instr) (fs : List Text) :
    Except DecodeRefusal Instr :=
  (slots3 fs).bind fun t =>
    (reg t.1).bind fun rd => (reg t.2.1).bind fun rs1 => (reg t.2.2).bind fun rs2 => .ok (mk rd rs1 rs2)

/-- `op rd, rs1, imm`. -/
def registerImmediateFormat (mk : RegIndex → RegIndex → Word → Instr) (fs : List Text) :
    Except DecodeRefusal Instr :=
  (slots3 fs).bind fun t =>
    (reg t.1).bind fun rd => (reg t.2.1).bind fun rs1 => (num t.2.2).bind fun v =>
      (imm12 v).bind fun imm => .ok (mk rd rs1 imm)

/-- `op rd, offset(rs1)`. -/
def memoryFormat (mk : RegIndex → Word → RegIndex → Instr) (fs : List Text) : Except DecodeRefusal Instr :=
  (slots3 fs).bind fun t =>
    (reg t.1).bind fun rd => (num t.2.1).bind fun v => (off32 v).bind fun offset =>
      (reg t.2.2).bind fun rs1 => .ok (mk rd offset rs1)

/-- `op rd, imm`. -/
def upperImmediateFormat (mk : RegIndex → Word → Instr) (fs : List Text) : Except DecodeRefusal Instr :=
  (slots2 fs).bind fun t =>
    (reg t.1).bind fun rd => (num t.2).bind fun v => (imm20 v).bind fun imm => .ok (mk rd imm)

/-- The operands of a recognised mnemonic, from the fields of its cleaned operand list (R71, R78). -/
def decodeOperands (m : Mnemonic) (fs : List Text) : Except DecodeRefusal Instr :=
  match m with
  | .add => registerRegisterFormat .add fs
  | .sub => registerRegisterFormat .sub fs
  | .and => registerRegisterFormat .and fs
  | .or => registerRegisterFormat .or fs
  | .xor => registerRegisterFormat .xor fs
  | .slt => registerRegisterFormat .slt fs
  | .sll => registerRegisterFormat .sll fs
  | .sra => registerRegisterFormat .sra fs
  | .addi => registerImmediateFormat .addi fs
  | .andi => registerImmediateFormat .andi fs
  | .ori => registerImmediateFormat .ori fs
  | .xori => registerImmediateFormat .xori fs
  | .slti => registerImmediateFormat .slti fs
  | .lw => memoryFormat .lw fs
  | .lb => memoryFormat .lb fs
  | .sw => memoryFormat .sw fs
  | .sb => memoryFormat .sb fs
  | .lui => upperImmediateFormat .lui fs

/-- What the operand decoder answers, as a result of decoding. -/
def Decoded.ofExcept : Except DecodeRefusal Instr → Decoded
  | .ok i => .instr i
  | .error r => .refuse r

/-- `Decode(text)` (R71). A text that holds the code 0x00 is refused before anything else is looked at (R70, U16). -/
def decode (text : Text) : Decoded :=
  if chNul ∈ text then .refuse .nulCharacter
  else
    match splitAtSpace text with
    | none => .refuse .noSeparator
    | some ([], _) => .refuse .emptyMnemonic
    | some (c :: cs, rem) =>
      match mnemonicOf (c :: cs) with
      | none => .skip
      | some m => Decoded.ofExcept (decodeOperands m (fields (clean rem)))

/-! ### The encoder: the customary spelling (R90) -/

/-- The character of a decimal digit. -/
def digitChar (d : Nat) : Char8 := BitVec.ofNat 8 (0x30 + d)

/-- The decimal digits of `n`, without leading zeros; `fuel` bounds how many come before the last. -/
def decimalFuel : Nat → Nat → Text
  | 0, n => [digitChar (n % 10)]
  | fuel + 1, n => if n < 10 then [digitChar n] else decimalFuel fuel (n / 10) ++ [digitChar (n % 10)]

/-- A natural number below 10^10 in decimal. -/
def decimalText (n : Nat) : Text := decimalFuel 9 n

/-- An integer in decimal, with its `-` where it is negative. -/
def intText (v : Int) : Text := if v < 0 then chMinus :: decimalText v.natAbs else decimalText v.natAbs

/-- A register in instruction text: `x` and its number (10_state.md R21). -/
def regText (r : RegIndex) : Text := chLowerX :: decimalText r.val

/-- `, `, the customary separator of two operands. -/
def commaSpace : Text := [chComma, chSpace]

def registerRegisterOperands (rd rs1 rs2 : RegIndex) : Text :=
  regText rd ++ (commaSpace ++ (regText rs1 ++ (commaSpace ++ regText rs2)))

def registerImmediateOperands (rd rs1 : RegIndex) (imm : Word) : Text :=
  regText rd ++ (commaSpace ++ (regText rs1 ++ (commaSpace ++ intText imm.toInt)))

def memoryOperands (rd : RegIndex) (offset : Word) (rs1 : RegIndex) : Text :=
  regText rd ++ (commaSpace ++ (intText offset.toInt ++ (chOpen :: (regText rs1 ++ [chClose]))))

def upperImmediateOperands (rd : RegIndex) (imm : Word) : Text :=
  regText rd ++ (commaSpace ++ intText imm.toInt)

/-- The operand list of an instruction in its customary spelling (R90). -/
def operandText : Instr → Text
  | .add rd rs1 rs2 => registerRegisterOperands rd rs1 rs2
  | .sub rd rs1 rs2 => registerRegisterOperands rd rs1 rs2
  | .and rd rs1 rs2 => registerRegisterOperands rd rs1 rs2
  | .or rd rs1 rs2 => registerRegisterOperands rd rs1 rs2
  | .xor rd rs1 rs2 => registerRegisterOperands rd rs1 rs2
  | .slt rd rs1 rs2 => registerRegisterOperands rd rs1 rs2
  | .sll rd rs1 rs2 => registerRegisterOperands rd rs1 rs2
  | .sra rd rs1 rs2 => registerRegisterOperands rd rs1 rs2
  | .addi rd rs1 imm => registerImmediateOperands rd rs1 imm
  | .andi rd rs1 imm => registerImmediateOperands rd rs1 imm
  | .ori rd rs1 imm => registerImmediateOperands rd rs1 imm
  | .xori rd rs1 imm => registerImmediateOperands rd rs1 imm
  | .slti rd rs1 imm => registerImmediateOperands rd rs1 imm
  | .lw rd offset rs1 => memoryOperands rd offset rs1
  | .lb rd offset rs1 => memoryOperands rd offset rs1
  | .sw rd offset rs1 => memoryOperands rd offset rs1
  | .sb rd offset rs1 => memoryOperands rd offset rs1
  | .lui rd imm => upperImmediateOperands rd imm

/-- The text of an instruction: mnemonic, `SP`, operand list (R70, R90). -/
def encode (i : Instr) : Text := mnemonicText i.mnemonic ++ chSpace :: operandText i

/-! ### Words of spec/opcode_table.json

A row gives the first bytes of the text, the mnemonic and its `SP`, as one number with the FIRST byte most significant
(`match_applies_to`), and gives its operands no bits. Log 6. -/

/-- The low `n` bytes of `w`, most significant first. -/
def bytesOf : Nat → Nat → Text
  | 0, _ => []
  | n + 1, w => bytesOf n (w / 256) ++ [BitVec.ofNat 8 w]

/-- The operand list of a format with every register index and every number 0. -/
def zeroOperands : Shape → Text
  | .registerRegister => registerRegisterOperands 0 0 0
  | .registerImmediate => registerImmediateOperands 0 0 0
  | .memory => memoryOperands 0 0 0
  | .upperImmediate => upperImmediateOperands 0 0
  | .unknown => []

/-- The text that a table word stands for: its bytes, first byte most significant, and, where they are a mnemonic and
its `SP` with nothing after it, the operand list of zeros that the row has no bits for (Log 6). -/
def textOfTableWord (nbits w : Nat) : Text :=
  let bytes := bytesOf ((nbits + 7) / 8) w
  match splitAtSpace bytes with
  | some (mn, []) => bytes ++ zeroOperands (classify mn)
  | _ => bytes

/-- The instruction the decoder reads from a word of spec/opcode_table.json; none where it skips or refuses. -/
def decodeTableWord (nbits w : Nat) : Option Instr :=
  match decode (textOfTableWord nbits w) with
  | .instr i => some i
  | .skip => none
  | .refuse _ => none

end Sys2Proof
end

