-- ==== Sys2Proof/Machine/State.lean ====
section
/-! DEFINITION. The state of one session and the host's place in its program (10_state.md), the reasons a step can stop
(60_exceptions.md), and the state after `create_session` (10_state.md R34). -/
namespace Sys2Proof.Machine

/-- The faults of the core: none. "No instruction shape raises a recoverable error" (60_exceptions.md R175), and the core
has no trap of any kind (R178), so nothing raises one. -/
inductive Fault
  deriving DecidableEq, Repr

/-- Why a transaction has no next state (60_exceptions.md R179). -/
inductive Refusal where
  /-- An instruction that has no meaning yet, raised by its arm of `exec`. Safe. No arm raises it now. -/
  | notModelled (mnemonic : String)
  /-- `execute` was given a text that the source calls undefined; raised by the decoder through `execute`. Safe. -/
  | decode (reason : DecodeRefusal)
  /-- `read_register` with an index outside 0 to 31; raised by `readRegister` (00_scope.md R9). Safe. -/
  | badRegisterIndex
  /-- `create_session` with a bucket count of 0 or less; raised by `createSession` (70_reset_and_hazards.md R197).
  Safe. -/
  | bucketCount
  deriving DecidableEq, Repr

/-- The Associative Store as the partial map `M` with its `size` counter (10_state.md R31, R33). `keys` is the domain of
`M`; `cells` holds the bytes of `M` that differ from what an unlisted address reads as, 0. An address is the 32-bit
pattern read as a natural number. Log 1. -/
structure Memory where
  /-- The bytes that are not 0, by strictly rising address. -/
  cells : List Host.Cell
  /-- The addresses that have been written, strictly rising. -/
  keys : List Nat
  /-- The counter of distinct keys ever inserted. -/
  size : Nat
  deriving DecidableEq, Repr

/-- The canonical form of a memory: addresses strictly rising, no entry equal to what an unlisted address reads as,
every listed byte at a written address, every address in the address space, and the counter equal to the number of
written addresses (10_state.md R31). -/
abbrev Memory.wf (m : Memory) : Prop :=
  m.cells.Pairwise (fun c d => c.1 < d.1) ∧ (∀ c ∈ m.cells, c.2 ≠ Config.unlistedByte) ∧
    m.keys.Pairwise (· < ·) ∧ (∀ c ∈ m.cells, c.1 ∈ m.keys) ∧ (∀ k ∈ m.keys, k < Config.addressCount) ∧
    m.size = m.keys.length

/-- The store with no key (20_memory.md R50). -/
def Memory.empty : Memory := { cells := [], keys := [], size := 0 }

/-- One session, with the host's program and its place in it. -/
structure State where
  /-- The register bank, `x[0]` to `x[31]` (10_state.md R20). Register 0 is an ordinary register (R22). -/
  regs : Vector Word 32
  /-- The Associative Store (10_state.md R31). -/
  memory : Memory
  /-- The host's list of texts (00_scope.md R14). Held by the driver, not by the core (10_state.md R35). -/
  program : List Text
  /-- The host's index of the next text (10_state.md R27). No instruction can observe it. -/
  seq : Nat
  deriving DecidableEq, Repr

/-- The state after `create_session` (10_state.md R34), with a host that has not yet supplied a program (Log 3). -/
def State.reset : State :=
  { regs := Vector.replicate 32 0#32, memory := Memory.empty, program := [], seq := 0 }

end Sys2Proof.Machine
end

