-- ==== Sys2Proof/Machine/Ops.lean ====
section
/-! DEFINITION. The operations over registers and memory that the meanings share: the register bank (10_state.md R20 to
R26), `put` and `get` of the store (20_memory.md R43 to R45) and the byte-cell marshaling unit (R52 to R55).
The spec describes no exception, so there is no operation that takes one (60_exceptions.md R175, R178). -/
namespace Sys2Proof.Machine

/-! ### The register bank -/

/-- `x[r]`. Register 0 is read like any other (10_state.md R22). -/
def State.readReg (s : State) (r : RegIndex) : Word := s.regs.get r

/-- `x[r] <- v`. Register 0 is written like any other (10_state.md R22). -/
def State.writeReg (s : State) (r : RegIndex) (v : Word) : State := { s with regs := s.regs.set r.val v r.isLt }

/-! ### The store: `get`, `put`, `size` -/

/-- The byte that the list of cells gives an address. -/
def cellsRead : List Host.Cell → Nat → Byte
  | [], _ => Config.unlistedByte
  | c :: cs, a => if c.1 = a then c.2 else cellsRead cs a

/-- A cell put in its place by address. -/
def cellsInsert : List Host.Cell → Nat → Byte → List Host.Cell
  | [], a, v => [(a, v)]
  | c :: cs, a, v => if a < c.1 then (a, v) :: c :: cs else c :: cellsInsert cs a v

/-- The cells without the one at an address. -/
def cellsErase (cells : List Host.Cell) (a : Nat) : List Host.Cell := cells.filter fun c => decide (c.1 ≠ a)

/-- The byte of one address replaced; a byte equal to what an unlisted address reads as is not listed. -/
def cellsWrite (cells : List Host.Cell) (a : Nat) (v : Byte) : List Host.Cell :=
  if v = Config.unlistedByte then cellsErase cells a else cellsInsert (cellsErase cells a) a v

/-- A key put in its place among rising keys. -/
def keysInsert : List Nat → Nat → List Nat
  | [], a => [a]
  | k :: ks, a => if a < k then a :: k :: ks else k :: keysInsert ks a

/-- The key is in `dom M`. -/
def Memory.present (m : Memory) (key : Word) : Bool := decide (key.toNat ∈ m.keys)

/-- `M[key]`, none where the key is absent (10_state.md R31). -/
def Memory.lookup (m : Memory) (key : Word) : Option Byte :=
  if m.present key then some (cellsRead m.cells key.toNat) else none

/-- `get(key)`: the stored value, or 0 where the key is absent (20_memory.md R44). -/
def Memory.get (m : Memory) (key : Word) : Byte := (m.lookup key).getD Config.unlistedByte

/-- `put(key, value)`: overwrite and leave `size`, or add the key and count it; a value of 0 too (20_memory.md R43). -/
def Memory.put (m : Memory) (key : Word) (value : Byte) : Memory :=
  if m.present key then { m with cells := cellsWrite m.cells key.toNat value }
  else
    { cells := cellsWrite m.cells key.toNat value
      keys := keysInsert m.keys key.toNat
      size := m.size + 1 }

/-! ### The byte-cell marshaling unit -/

/-- Byte `i` of a word, byte 0 being bits 7 to 0: `v[8i+7:8i]` (20_memory.md R54). -/
def byteOf (v : Word) (i : Nat) : Byte := (v >>> (8 * i)).setWidth 8

/-- `b_0 | b_1 << 8 | b_2 << 16 | b_3 << 24` of zero-extended bytes (20_memory.md R53). -/
def assembleWord (b0 b1 b2 b3 : Byte) : Word :=
  b0.setWidth 32 ||| b1.setWidth 32 <<< 8 ||| b2.setWidth 32 <<< 16 ||| b3.setWidth 32 <<< 24

/-- A byte widened from bit 7, by OR-ing with 0xFFFFFF00 where bit 7 is set (20_memory.md R55). -/
def signExtendByte (b : Byte) : Word :=
  if b.getLsbD 7 then b.setWidth 32 ||| 0xFFFFFF00#32 else b.setWidth 32

/-- `wrap32(s(ea) + i)`, the address of byte `i` of an access at `ea` (20_memory.md R42). -/
def byteAddress (ea : Word) (i : Nat) : Word := ea + BitVec.ofNat 32 i

/-- `MemRead(ea, 1)` (20_memory.md R53). -/
def Memory.readByte (m : Memory) (ea : Word) : Byte := m.get ea

/-- `MemRead(ea, 4)` (20_memory.md R53). -/
def Memory.readWord (m : Memory) (ea : Word) : Word :=
  assembleWord (m.get (byteAddress ea 0)) (m.get (byteAddress ea 1)) (m.get (byteAddress ea 2))
    (m.get (byteAddress ea 3))

/-- `MemWrite(ea, 1, v)` (20_memory.md R54). -/
def Memory.writeByte (m : Memory) (ea : Word) (v : Word) : Memory := m.put ea (byteOf v 0)

/-- `MemWrite(ea, 4, v)` (20_memory.md R54); the order of the four `put`s cannot be observed (Log 12). -/
def Memory.writeWord (m : Memory) (ea : Word) (v : Word) : Memory :=
  (((m.put (byteAddress ea 0) (byteOf v 0)).put (byteAddress ea 1) (byteOf v 1)).put
    (byteAddress ea 2) (byteOf v 2)).put (byteAddress ea 3) (byteOf v 3)

end Sys2Proof.Machine
end

