-- ==== Sys2Proof/Machine/Operands.lean ====
section
/-! DEFINITION. The operand forms: the register-file multiplexer (10_state.md R24) and the effective-address adder
(20_memory.md R41). -/
namespace Sys2Proof.Machine

/-- The selects of the register-file multiplexer; none where a shape leaves a port unused (10_state.md R24). -/
structure RegPorts where
  /-- Base or first source. -/
  read1 : Option RegIndex
  /-- Second source or store data. -/
  read2 : Option RegIndex
  /-- Write select; none is write enable 0. -/
  write : Option RegIndex
  deriving DecidableEq, Repr

/-- Register-Register: read slots B and C, write slot A. -/
def portsRegisterRegister (rd rs1 rs2 : RegIndex) : RegPorts := ⟨some rs1, some rs2, some rd⟩

/-- Register-Immediate: read slot B, write slot A. -/
def portsRegisterImmediate (rd rs1 : RegIndex) : RegPorts := ⟨some rs1, none, some rd⟩

/-- Memory load: read slot C, write slot A. -/
def portsLoad (rd rs1 : RegIndex) : RegPorts := ⟨some rs1, none, some rd⟩

/-- Memory store: read slot C (base) and slot A (value register), write nothing. -/
def portsStore (rd rs1 : RegIndex) : RegPorts := ⟨some rs1, some rd, none⟩

/-- Upper-Immediate: read nothing, write slot A. -/
def portsUpperImmediate (rd : RegIndex) : RegPorts := ⟨none, none, some rd⟩

/-- Unknown: no port is used. -/
def portsUnknown : RegPorts := ⟨none, none, none⟩

/-- The selects that an instruction drives (10_state.md R23, R24). -/
def ports : Instr → RegPorts
  | .add rd rs1 rs2 => portsRegisterRegister rd rs1 rs2
  | .sub rd rs1 rs2 => portsRegisterRegister rd rs1 rs2
  | .and rd rs1 rs2 => portsRegisterRegister rd rs1 rs2
  | .or rd rs1 rs2 => portsRegisterRegister rd rs1 rs2
  | .xor rd rs1 rs2 => portsRegisterRegister rd rs1 rs2
  | .slt rd rs1 rs2 => portsRegisterRegister rd rs1 rs2
  | .sll rd rs1 rs2 => portsRegisterRegister rd rs1 rs2
  | .sra rd rs1 rs2 => portsRegisterRegister rd rs1 rs2
  | .addi rd rs1 _ => portsRegisterImmediate rd rs1
  | .andi rd rs1 _ => portsRegisterImmediate rd rs1
  | .ori rd rs1 _ => portsRegisterImmediate rd rs1
  | .xori rd rs1 _ => portsRegisterImmediate rd rs1
  | .slti rd rs1 _ => portsRegisterImmediate rd rs1
  | .lw rd _ rs1 => portsLoad rd rs1
  | .lb rd _ rs1 => portsLoad rd rs1
  | .sw rd _ rs1 => portsStore rd rs1
  | .sb rd _ rs1 => portsStore rd rs1
  | .lui rd _ => portsUpperImmediate rd

/-- The selects that a text drives: those of its instruction, none for an Unknown mnemonic; a refused text has no
meaning (10_state.md R24). -/
def textPorts (text : Text) : Option RegPorts :=
  match decode text with
  | .skip => some portsUnknown
  | .refuse _ => none
  | .instr i => some (ports i)

/-- `ea = wrap32(s(x[rs1]) + s(offset))`; the offset is neither scaled nor extended (20_memory.md R41, Log 7). -/
def effectiveAddress (s : State) (rs1 : RegIndex) (offset : Word) : Word := s.readReg rs1 + offset

end Sys2Proof.Machine
end

