-- ==== Sys2Proof/Machine/MemoryAccess.lean ====
section
/-! DEFINITION. The Memory instructions (42_memory_access.md R140 to R145). -/
namespace Sys2Proof.Machine

/-- `lw rd, offset(rs1)` (R140): the address is formed from the old `x[rs1]`. -/
def execLw (rd : RegIndex) (offset : Word) (rs1 : RegIndex) (s : State) : Host.Outcome State Fault Refusal :=
  .next (s.writeReg rd (s.memory.readWord (effectiveAddress s rs1 offset)))

/-- `lb rd, offset(rs1)` (R141). -/
def execLb (rd : RegIndex) (offset : Word) (rs1 : RegIndex) (s : State) : Host.Outcome State Fault Refusal :=
  .next (s.writeReg rd (signExtendByte (s.memory.readByte (effectiveAddress s rs1 offset))))

/-- `sw rd, offset(rs1)` (R142): `rd` names the value register, and no register is written (R145). -/
def execSw (rd : RegIndex) (offset : Word) (rs1 : RegIndex) (s : State) : Host.Outcome State Fault Refusal :=
  .next { s with memory := s.memory.writeWord (effectiveAddress s rs1 offset) (s.readReg rd) }

/-- `sb rd, offset(rs1)` (R143): `rd` names the value register, and no register is written (R145). -/
def execSb (rd : RegIndex) (offset : Word) (rs1 : RegIndex) (s : State) : Host.Outcome State Fault Refusal :=
  .next { s with memory := s.memory.writeByte (effectiveAddress s rs1 offset) (s.readReg rd) }

end Sys2Proof.Machine
end

