-- ==== Sys2Proof/Machine/Flags.lean ====
section
/-! DEFINITION. The core has no status flag, condition code or predicate register (10_state.md R28). The one computation
that another machine would put in a flag is the 0-or-1 result of `slt` and `slti`, which goes to the destination
register and nowhere else. -/
namespace Sys2Proof.Machine

/-- A comparison's result as a register value: 1 or 0 (10_state.md R28, 40_register_register.md R116). -/
def boolWord (p : Bool) : Word := if p then 1#32 else 0#32

end Sys2Proof.Machine
end

