-- ==== Sys2Proof/Machine/Alu.lean ====
section
/-! DEFINITION. The ALU (40_register_register.md R110, R119, R120). -/
namespace Sys2Proof.Machine

/-- The function select (R110). -/
inductive AluFn where
  | add | sub | and | or | xor | slt | sll | sra
  deriving DecidableEq, Repr

/-- The shift amount: the low five bits of operand `b` (R120, Log 8). -/
def shiftAmount (b : Word) : Nat := (b.extractLsb 4 0).toNat

/-- `ALU(f, a, b)` (R110): 32-bit two's complement, wrapping silently (R119). -/
def alu (f : AluFn) (a b : Word) : Word :=
  match f with
  | .add => a + b
  | .sub => a - b
  | .and => a &&& b
  | .or => a ||| b
  | .xor => a ^^^ b
  | .slt => boolWord (a.slt b)
  | .sll => a <<< shiftAmount b
  | .sra => a.sshiftRight (shiftAmount b)

/-- `x[rd] <- ALU(f, x[rs1], x[rs2])`, both registers read before the write (R119; 10_state.md R25). -/
def aluRegister (f : AluFn) (rd rs1 rs2 : RegIndex) (s : State) : State :=
  s.writeReg rd (alu f (s.readReg rs1) (s.readReg rs2))

/-- `x[rd] <- ALU(f, x[rs1], imm)` (41_register_immediate.md R135). -/
def aluImmediate (f : AluFn) (rd rs1 : RegIndex) (imm : Word) (s : State) : State :=
  s.writeReg rd (alu f (s.readReg rs1) imm)

end Sys2Proof.Machine
end

