-- ==== Sys2Proof/Machine/RegisterImmediate.lean ====
section
/-! DEFINITION. The Register-Immediate instructions (41_register_immediate.md R130 to R135). `imm` is already
sign-extended by the decoder (30_encoding.md R84). -/
namespace Sys2Proof.Machine

/-- `addi rd, rs1, imm` (R130). -/
def execAddi (rd rs1 : RegIndex) (imm : Word) (s : State) : Host.Outcome State Fault Refusal :=
  .next (aluImmediate .add rd rs1 imm s)

/-- `andi rd, rs1, imm` (R131). -/
def execAndi (rd rs1 : RegIndex) (imm : Word) (s : State) : Host.Outcome State Fault Refusal :=
  .next (aluImmediate .and rd rs1 imm s)

/-- `ori rd, rs1, imm` (R132). -/
def execOri (rd rs1 : RegIndex) (imm : Word) (s : State) : Host.Outcome State Fault Refusal :=
  .next (aluImmediate .or rd rs1 imm s)

/-- `xori rd, rs1, imm` (R133). -/
def execXori (rd rs1 : RegIndex) (imm : Word) (s : State) : Host.Outcome State Fault Refusal :=
  .next (aluImmediate .xor rd rs1 imm s)

/-- `slti rd, rs1, imm` (R134). -/
def execSlti (rd rs1 : RegIndex) (imm : Word) (s : State) : Host.Outcome State Fault Refusal :=
  .next (aluImmediate .slt rd rs1 imm s)

end Sys2Proof.Machine
end

