-- ==== Sys2Proof/Machine/RegisterRegister.lean ====
section
/-! DEFINITION. The Register-Register instructions (40_register_register.md R111 to R119). -/
namespace Sys2Proof.Machine

/-- `add rd, rs1, rs2` (R111). -/
def execAdd (rd rs1 rs2 : RegIndex) (s : State) : Host.Outcome State Fault Refusal :=
  .next (aluRegister .add rd rs1 rs2 s)

/-- `sub rd, rs1, rs2` (R112). -/
def execSub (rd rs1 rs2 : RegIndex) (s : State) : Host.Outcome State Fault Refusal :=
  .next (aluRegister .sub rd rs1 rs2 s)

/-- `and rd, rs1, rs2` (R113). -/
def execAnd (rd rs1 rs2 : RegIndex) (s : State) : Host.Outcome State Fault Refusal :=
  .next (aluRegister .and rd rs1 rs2 s)

/-- `or rd, rs1, rs2` (R114). -/
def execOr (rd rs1 rs2 : RegIndex) (s : State) : Host.Outcome State Fault Refusal :=
  .next (aluRegister .or rd rs1 rs2 s)

/-- `xor rd, rs1, rs2` (R115). -/
def execXor (rd rs1 rs2 : RegIndex) (s : State) : Host.Outcome State Fault Refusal :=
  .next (aluRegister .xor rd rs1 rs2 s)

/-- `slt rd, rs1, rs2` (R116). -/
def execSlt (rd rs1 rs2 : RegIndex) (s : State) : Host.Outcome State Fault Refusal :=
  .next (aluRegister .slt rd rs1 rs2 s)

/-- `sll rd, rs1, rs2` (R117, R120). -/
def execSll (rd rs1 rs2 : RegIndex) (s : State) : Host.Outcome State Fault Refusal :=
  .next (aluRegister .sll rd rs1 rs2 s)

/-- `sra rd, rs1, rs2` (R118, R120). -/
def execSra (rd rs1 rs2 : RegIndex) (s : State) : Host.Outcome State Fault Refusal :=
  .next (aluRegister .sra rd rs1 rs2 s)

end Sys2Proof.Machine
end

