-- ==== Sys2Proof/Machine/UpperImmediate.lean ====
section
/-! DEFINITION. The Upper-Immediate instruction (43_upper_immediate.md R160). -/
namespace Sys2Proof.Machine

/-- `lui rd, imm` (R160): `x[rd] <- wrap32(u(imm) * 2^12)`. -/
def execLui (rd : RegIndex) (imm : Word) (s : State) : Host.Outcome State Fault Refusal :=
  .next (s.writeReg rd (imm <<< 12))

end Sys2Proof.Machine
end

