-- ==== Sys2Proof/Machine/Dispatch.lean ====
section
/-! DEFINITION. The execution engine: one arm per constructor of `Instr` (00_scope.md R13). -/
namespace Sys2Proof.Machine

def exec (i : Instr) (s : State) : Host.Outcome State Fault Refusal :=
  match i with
  -- Register-Register
  | .add rd rs1 rs2 => Sys2Proof.Machine.execAdd rd rs1 rs2 s
  | .sub rd rs1 rs2 => Sys2Proof.Machine.execSub rd rs1 rs2 s
  | .and rd rs1 rs2 => Sys2Proof.Machine.execAnd rd rs1 rs2 s
  | .or rd rs1 rs2 => Sys2Proof.Machine.execOr rd rs1 rs2 s
  | .xor rd rs1 rs2 => Sys2Proof.Machine.execXor rd rs1 rs2 s
  | .slt rd rs1 rs2 => Sys2Proof.Machine.execSlt rd rs1 rs2 s
  | .sll rd rs1 rs2 => Sys2Proof.Machine.execSll rd rs1 rs2 s
  | .sra rd rs1 rs2 => Sys2Proof.Machine.execSra rd rs1 rs2 s
  -- Register-Immediate
  | .addi rd rs1 imm => Sys2Proof.Machine.execAddi rd rs1 imm s
  | .andi rd rs1 imm => Sys2Proof.Machine.execAndi rd rs1 imm s
  | .ori rd rs1 imm => Sys2Proof.Machine.execOri rd rs1 imm s
  | .xori rd rs1 imm => Sys2Proof.Machine.execXori rd rs1 imm s
  | .slti rd rs1 imm => Sys2Proof.Machine.execSlti rd rs1 imm s
  -- Memory
  | .lw rd offset rs1 => Sys2Proof.Machine.execLw rd offset rs1 s
  | .lb rd offset rs1 => Sys2Proof.Machine.execLb rd offset rs1 s
  | .sw rd offset rs1 => Sys2Proof.Machine.execSw rd offset rs1 s
  | .sb rd offset rs1 => Sys2Proof.Machine.execSb rd offset rs1 s
  -- Upper-Immediate
  | .lui rd imm => Sys2Proof.Machine.execLui rd imm s

end Sys2Proof.Machine
end

