-- ==== Sys2Proof/Machine/Unknown.lean ====
section
/-! DEFINITION. The Unknown shape (44_unknown.md R165, R169). -/
namespace Sys2Proof.Machine

/-- `skip`: the transaction completes and nothing changes (R165). -/
def execSkip (s : State) : Host.Outcome State Fault Refusal := .next s

end Sys2Proof.Machine
end

