-- ==== Sys2Proof/Machine/Execute.lean ====
section
/-! DEFINITION. The host's transactions (00_scope.md R7 to R12) and its way through a program (R14; 10_state.md R27). -/
namespace Sys2Proof.Machine

/-- The host's index moves on by 1 (10_state.md R27). -/
def advance (s : State) : State := { s with seq := s.seq + 1 }

/-- Transaction `execute(session, instruction_text)` (00_scope.md R8), with the three outcomes of 60_exceptions.md R181:
executed, skipped, refused. The host's index advances with every transaction that is not refused. -/
def execute (text : Text) (s : State) : Host.Outcome State Fault Refusal :=
  match decode text with
  | .skip => execSkip (advance s)
  | .refuse r => .refused (.decode r)
  | .instr i => exec i (advance s)

/-- The text that the host issues next: the one at its index (00_scope.md R14, 10_state.md R27). -/
def nextText (s : State) : Option Text := s.program[s.seq]?

/-- No text is left, so the host issues no transaction: the core holds its state and does nothing (60_exceptions.md
R185, Log 5). -/
def idle (s : State) : Host.Outcome State Fault Refusal := .next s

/-- Transaction `create_session(bucket_count)`: the only reset (70_reset_and_hazards.md R195), refused for a signed
count of 0 or less (R197). The map `M` does not depend on the count (20_memory.md R49). -/
def createSession (bucketCount : Word) : Host.Outcome State Fault Refusal :=
  if bucketCount.toInt ≤ 0 then .refused .bucketCount else .next State.reset

/-- Transaction `read_register(session, index)` (00_scope.md R9). -/
def readRegister (s : State) (index : Int) : Except Refusal Int :=
  if h : 0 ≤ index ∧ index < 32 then .ok (s.readReg ⟨index.toNat, by omega⟩).toInt
  else .error .badRegisterIndex

/-- Transaction `read_memory(session, address)`: `get(address)`, a value in 0 to 255 (00_scope.md R9). -/
def readMemory (s : State) (address : Word) : Nat := (s.memory.get address).toNat

/-- Transaction `size(session)` (00_scope.md R10). -/
def storeSize (s : State) : Nat := s.memory.size

/-- The host's list with `t` as its text number `n`; texts that are missing before it are empty. -/
def placeText : List Text → Nat → Text → List Text
  | [], 0, t => [t]
  | _ :: ts, 0, t => t :: ts
  | [], n + 1, t => [] :: placeText [] n t
  | u :: ts, n + 1, t => u :: placeText ts n t

end Sys2Proof.Machine
end

