-- ==== Sys2Proof/Machine/Step.lean ====
section
/-! DEFINITION. One step: the host issues `execute` for its next text (00_scope.md R8, R12, R14). -/
namespace Sys2Proof.Machine

/-- One step of the machine and its host. -/
def step (s : State) : Host.Outcome State Fault Refusal :=
  match nextText s with
  | none => idle s
  | some text => execute text s

/-- The state with the instruction of a table word as the host's next text, so that the very next step runs it (Log 3,
Log 6). -/
def State.withFetchWord (s : State) (nbits w : Nat) : State :=
  { s with program := placeText s.program s.seq (textOfTableWord nbits w) }

end Sys2Proof.Machine
end

