-- ==== Sys2Proof/Machine/Buckets.lean ====
section
/-! DEFINITION. The hidden organisation of the Associative Store: an array of bucket lists, the bucket hash, and `init`,
`put`, `get` and `size` over them (10_state.md R33; 20_memory.md R46 to R50). Nothing visible depends on it (R49): the
machine holds the map `M`, and this component refines it for every `BUCKET_COUNT` (Log 2). -/
namespace Sys2Proof.Machine

/-- One (key, value) node of a bucket list. -/
abbrev Node := Word × Byte

/-- An array of bucket lists, and the counter of distinct keys. -/
structure BucketStore where
  buckets : List (List Node)
  size : Nat
  deriving DecidableEq, Repr

/-- `hash(key) = abs(key) mod bucket_count`, with `abs` in unbounded integers (20_memory.md R46). -/
def bucketHash (bucketCount : Nat) (key : Word) : Nat := key.toInt.natAbs % bucketCount

/-- `init(bucket_count)`: that many empty buckets (20_memory.md R50). -/
def BucketStore.init (bucketCount : Nat) : BucketStore := { buckets := List.replicate bucketCount [], size := 0 }

/-- The value of a key in a bucket list, every node compared until it is found or the list ends (20_memory.md R47,
R48). -/
def chainLookup : List Node → Word → Option Byte
  | [], _ => none
  | n :: ns, key => if n.1 = key then some n.2 else chainLookup ns key

/-- The value of a key overwritten in place (20_memory.md R47). -/
def chainOverwrite : List Node → Word → Byte → List Node
  | [], _, _ => []
  | n :: ns, key, v => if n.1 = key then (key, v) :: ns else n :: chainOverwrite ns key v

/-- The bucket list that a key belongs to. -/
def BucketStore.chain (b : BucketStore) (key : Word) : List Node :=
  b.buckets.getD (bucketHash b.buckets.length key) []

/-- `get(key)` (20_memory.md R44, R47, R48). -/
def BucketStore.get (b : BucketStore) (key : Word) : Byte :=
  (chainLookup (b.chain key) key).getD Config.unlistedByte

/-- `put(key, value)`: overwrite in place, or prepend a node and count it (20_memory.md R43, R47). -/
def BucketStore.put (b : BucketStore) (key : Word) (value : Byte) : BucketStore :=
  match chainLookup (b.chain key) key with
  | some _ =>
    { b with
      buckets := b.buckets.set (bucketHash b.buckets.length key) (chainOverwrite (b.chain key) key value) }
  | none =>
    { buckets := b.buckets.set (bucketHash b.buckets.length key) ((key, value) :: b.chain key)
      size := b.size + 1 }

/-- The two invariants of 10_state.md R33: every node is in the bucket of its key, and the keys of a bucket are unique,
so that each key appears in at most one node of the whole store. -/
abbrev BucketStore.wf (b : BucketStore) : Prop :=
  (∀ j, ∀ n ∈ b.buckets.getD j [], bucketHash b.buckets.length n.1 = j) ∧
    ∀ j, ((b.buckets.getD j []).map Prod.fst).Nodup

end Sys2Proof.Machine
end

