-- ==== Sys2Proof/Safety.lean ====
section
/-! DEFINITION. What counts as a safe state and as an admitted program, in the terms that claims use. -/
namespace Sys2Proof.Machine

/-- The invariant of the machine: the store is in its canonical form and its counter is right (10_state.md R31). -/
abbrev State.Inv (s : State) : Prop := s.memory.wf

/-- The text has a meaning: the decoder does not refuse it (60_exceptions.md R179). -/
def accepted (t : Text) : Bool :=
  match decode t with
  | .skip => true
  | .refuse _ => false
  | .instr _ => true

/-- Every text of the host's program has a meaning: what a claim about a program requires (60_exceptions.md R179). -/
def State.admitted (s : State) : Bool := s.program.all accepted

/-- The frame of an instruction that writes register `rd` with `v` and nothing else: every other register, every byte of
memory, which addresses are present, the `size` counter and the host's list and place are as before. The core has no
flag and no special register (10_state.md R28 to R30). -/
def State.WritesOnly (s t : State) (rd : RegIndex) (v : Word) : Prop :=
  t.readReg rd = v ∧ (∀ r, r ≠ rd → t.readReg r = s.readReg r) ∧ (∀ a, t.memory.get a = s.memory.get a) ∧
    t.memory = s.memory ∧ t.program = s.program ∧ t.seq = s.seq

/-- The frame of a store: no register, and neither the host's list nor its place, is written. -/
def State.KeepsRegisters (s t : State) : Prop :=
  (∀ r, t.readReg r = s.readReg r) ∧ t.program = s.program ∧ t.seq = s.seq

/-- The bytes that an instruction stores, each with its address: the four of `sw` at `byteAddress` of the effective address,
the one of `sb`, none of any other (42_memory_access.md R142, R143; 20_memory.md R54). -/
def storesOf : Instr → State → List (Word × Byte)
  | .add _ _ _, _ => []
  | .sub _ _ _, _ => []
  | .and _ _ _, _ => []
  | .or _ _ _, _ => []
  | .xor _ _ _, _ => []
  | .slt _ _ _, _ => []
  | .sll _ _ _, _ => []
  | .sra _ _ _, _ => []
  | .addi _ _ _, _ => []
  | .andi _ _ _, _ => []
  | .ori _ _ _, _ => []
  | .xori _ _ _, _ => []
  | .slti _ _ _, _ => []
  | .lw _ _ _, _ => []
  | .lb _ _ _, _ => []
  | .sw rd offset rs1, s =>
    (List.range 4).map fun i => (byteAddress (effectiveAddress s rs1 offset) i, byteOf (s.readReg rd) i)
  | .sb rd offset rs1, s => [(effectiveAddress s rs1 offset, byteOf (s.readReg rd) 0)]
  | .lui _ _, _ => []

/-- The bytes that the next step stores: those of the instruction that the host's next text decodes to. -/
def stepStores (s : State) : List (Word × Byte) :=
  match nextText s with
  | none => []
  | some text =>
    match decode text with
    | .skip => []
    | .refuse _ => []
    | .instr i => storesOf i s

end Sys2Proof.Machine
end

