-- ==== Sys2Proof/Certificates/Slice0/Obligations.lean ====
section
/-! DEFINITION. The statements for the provers. Each says what the machine does in the spec's own terms: `s(v)` is
`v.toInt`, `u(v)` is `v.toNat`, `wrap32` is `Sys2Proof.wrap32`. -/
open Sys2Proof Sys2Proof.Machine

/-! ### Encoding and decoding -/

/-- One text of each family, written out character by character (95_test_vectors.md section 9), decodes to the
instruction it stands for, and the source's Scenario D is a skip. -/
def Obligations.WrittenTextsDecode : Prop :=
  -- add x3, x1, x2
  decode [0x61#8, 0x64#8, 0x64#8, 0x20#8, 0x78#8, 0x33#8, 0x2C#8, 0x20#8, 0x78#8, 0x31#8, 0x2C#8, 0x20#8, 0x78#8,
      0x32#8] = .instr (.add 3 1 2) ∧
  -- slti x7, x1, 0xFFF
  decode [0x73#8, 0x6C#8, 0x74#8, 0x69#8, 0x20#8, 0x78#8, 0x37#8, 0x2C#8, 0x20#8, 0x78#8, 0x31#8, 0x2C#8, 0x20#8,
      0x30#8, 0x78#8, 0x46#8, 0x46#8, 0x46#8] = .instr (.slti 7 1 0xFFFFFFFF#32) ∧
  -- sw x1, -2(x4)
  decode [0x73#8, 0x77#8, 0x20#8, 0x78#8, 0x31#8, 0x2C#8, 0x20#8, 0x2D#8, 0x32#8, 0x28#8, 0x78#8, 0x34#8, 0x29#8] =
    .instr (.sw 1 0xFFFFFFFE#32 4) ∧
  -- lui x4, 0x80000
  decode [0x6C#8, 0x75#8, 0x69#8, 0x20#8, 0x78#8, 0x34#8, 0x2C#8, 0x20#8, 0x30#8, 0x78#8, 0x38#8, 0x30#8, 0x30#8,
      0x30#8, 0x30#8] = .instr (.lui 4 0x80000#32) ∧
  -- foo x1 x2
  decode [0x66#8, 0x6F#8, 0x6F#8, 0x20#8, 0x78#8, 0x31#8, 0x20#8, 0x78#8, 0x32#8] = .skip

/-- Decode and encode agree: every well-formed instruction, with every operand at every value a text admits, is read
back whole from its customary spelling (30_encoding.md sections 2 to 10). -/
def Obligations.DecodeOfEncodeIsTheInstruction : Prop :=
  ∀ i : Instr, i.wellFormed = true → decode (encode i) = .instr i

/-- Whatever text is decoded, the immediates are in the ranges of 30_encoding.md section 6. -/
def Obligations.DecodedInstructionIsWellFormed : Prop :=
  ∀ (text : Text) (i : Instr), decode text = .instr i → i.wellFormed = true

/-- An instruction is selected by its mnemonic and one `SP` at the start of the text, and no such pattern begins another
(30_encoding.md section 3). -/
def Obligations.InstructionSelectedByMnemonicPattern : Prop :=
  (∀ (text : Text) (i : Instr), decode text = .instr i → (mnemonicText i.mnemonic ++ [chSpace]) <+: text) ∧
    ∀ m m' : Mnemonic, (mnemonicText m ++ [chSpace]) <+: (mnemonicText m' ++ [chSpace]) → m = m'

/-- The classifier is an exact membership test against the fixed mnemonic sets, here written out character by
character; everything else is Unknown (30_encoding.md section 3). -/
def Obligations.ClassifierIsExactMembership : Prop :=
  ∀ mn : Text,
    let registerRegister : List Text :=
      [[0x61#8, 0x64#8, 0x64#8], [0x73#8, 0x75#8, 0x62#8], [0x61#8, 0x6E#8, 0x64#8], [0x6F#8, 0x72#8],
        [0x78#8, 0x6F#8, 0x72#8], [0x73#8, 0x6C#8, 0x74#8], [0x73#8, 0x6C#8, 0x6C#8], [0x73#8, 0x72#8, 0x61#8]]
    let registerImmediate : List Text :=
      [[0x61#8, 0x64#8, 0x64#8, 0x69#8], [0x61#8, 0x6E#8, 0x64#8, 0x69#8], [0x6F#8, 0x72#8, 0x69#8],
        [0x78#8, 0x6F#8, 0x72#8, 0x69#8], [0x73#8, 0x6C#8, 0x74#8, 0x69#8]]
    let memory : List Text := [[0x6C#8, 0x77#8], [0x6C#8, 0x62#8], [0x73#8, 0x77#8], [0x73#8, 0x62#8]]
    let upperImmediate : List Text := [[0x6C#8, 0x75#8, 0x69#8]]
    (classify mn = .registerRegister ↔ mn ∈ registerRegister) ∧
      (classify mn = .registerImmediate ↔ mn ∈ registerImmediate) ∧
      (classify mn = .memory ↔ mn ∈ memory) ∧
      (classify mn = .upperImmediate ↔ mn ∈ upperImmediate) ∧
      (classify mn = .unknown ↔
        mn ∉ registerRegister ∧ mn ∉ registerImmediate ∧ mn ∉ memory ∧ mn ∉ upperImmediate)

/-- R165, R75: a text that splits and whose mnemonic is none of the eighteen is skipped, whatever its remainder holds:
no register, no cell, no counter changes; only the host's own index moves on. (A text that holds the code 0x00 is no
instruction text at all, 30_encoding.md R70.) -/
def Obligations.UnknownMnemonicIsSkipped : Prop :=
  ∀ (mn rem : Text) (s : State), mn ≠ [] → chSpace ∉ mn → chNul ∉ mn ++ rem → classify mn = .unknown →
    execute (mn ++ chSpace :: rem) s = .next { s with seq := s.seq + 1 }

/-- Texts outside the grammar are refused, never skipped. The refusals are decisions of the spec (92_eei_decisions.md
D3, D20; Log 4 for the name of the first). -/
def Obligations.TextsOutsideTheGrammarAreRefused : Prop :=
  ∀ (text : Text) (s : State),
    (chNul ∈ text → execute text s = .refused (.decode .nulCharacter)) ∧
      (chNul ∉ text → chSpace ∉ text → execute text s = .refused (.decode .noSeparator)) ∧
      (chNul ∉ text → execute (chSpace :: text) s = .refused (.decode .emptyMnemonic))

/-- Spaces in the operand list play no part, and the three separators are interchangeable (30_encoding.md section 4;
what follows from its cleaning is the spec's own inference). -/
def Obligations.SpacesVanishAndSeparatorsAreAlike : Prop :=
  (∀ mn rem : Text, chSpace ∉ mn →
      decode (mn ++ chSpace :: rem) = decode (mn ++ chSpace :: rem.filter fun c => decide (c ≠ chSpace))) ∧
    ∀ (mn a b : Text) (c c' : Char8), chSpace ∉ mn → c ∈ [chComma, chOpen, chClose] →
      c' ∈ [chComma, chOpen, chClose] →
      decode (mn ++ chSpace :: (a ++ c :: b)) = decode (mn ++ chSpace :: (a ++ c' :: b))

/-- Operands separated by spaces alone are refused, and so are four operands; the exact count is the spec's decision
(92_eei_decisions.md D5). -/
def Obligations.WrongOperandCountIsRefused : Prop :=
  (∀ (m : Mnemonic) (rem : Text), (∀ c ∈ rem, c ∉ [chComma, chOpen, chClose]) → chNul ∉ rem →
      decode (mnemonicText m ++ chSpace :: rem) = .refuse .operandCount) ∧
    ∀ (m : Mnemonic) (a b c d : Text),
      (∀ t ∈ [a, b, c, d], t ≠ [] ∧ ∀ x ∈ t, x ∉ [chSpace, chComma, chOpen, chClose, chNul]) →
      decode (mnemonicText m ++ chSpace :: (a ++ chComma :: (b ++ chComma :: (c ++ chComma :: d)))) =
        .refuse .operandCount

/-- A register token is `x` and decimal digits, leading zeros allowed, with a value of 0 to 31; anything else is refused.
The exact grammar is the spec's decision (92_eei_decisions.md D4). -/
def Obligations.RegisterTokenReadsItsDecimalNumber : Prop :=
  let digits : List (Fin 10) → Text := fun ds => ds.map fun d => BitVec.ofNat 8 (0x30 + d.val)
  (∀ ds : List (Fin 10), ds ≠ [] →
      reg (chLowerX :: digits ds) =
        if h : Nat.ofDigits 10 (ds.reverse.map Fin.val) < 32 then .ok ⟨_, h⟩
        else .error .registerIndexOutOfRange) ∧
    ∀ t : Text, (∀ ds : List (Fin 10), ds ≠ [] → t ≠ chLowerX :: digits ds) → reg t = .error .badToken

/-- A number token is an optional `-` and decimal digits, or an optional `-`, `0x` and hexadecimal digits of either
case; its value must fit 32 bits signed; anything else is refused. The exact grammar is the spec's decision
(92_eei_decisions.md D4). -/
def Obligations.NumberTokenReadsItsSignedValue : Prop :=
  let sign : Bool → Text := fun neg => if neg then [chMinus] else []
  let decimal : List (Fin 10) → Text := fun ds => ds.map fun d => BitVec.ofNat 8 (0x30 + d.val)
  let hexadecimal : List (Fin 16 × Bool) → Text := fun ds =>
    ds.map fun d =>
      if d.1.val < 10 then BitVec.ofNat 8 (0x30 + d.1.val)
      else if d.2 then BitVec.ofNat 8 (0x41 + (d.1.val - 10)) else BitVec.ofNat 8 (0x61 + (d.1.val - 10))
  let value : Bool → Nat → Int := fun neg n => if neg then -(n : Int) else (n : Int)
  let ranged : Int → Except DecodeRefusal Int := fun v =>
    if -(2 ^ 31) ≤ v ∧ v ≤ 2 ^ 31 - 1 then .ok v else .error .immediateOutOfRange
  (∀ (neg : Bool) (ds : List (Fin 10)), ds ≠ [] →
      num (sign neg ++ decimal ds) = ranged (value neg (Nat.ofDigits 10 (ds.reverse.map Fin.val)))) ∧
    (∀ (neg : Bool) (ds : List (Fin 16 × Bool)), ds ≠ [] →
      num (sign neg ++ chZero :: chLowerX :: hexadecimal ds) =
        ranged (value neg (Nat.ofDigits 16 (ds.reverse.map fun d => d.1.val)))) ∧
    ∀ t : Text, (∀ (neg : Bool) (ds : List (Fin 10)), ds ≠ [] → t ≠ sign neg ++ decimal ds) →
      (∀ (neg : Bool) (ds : List (Fin 16 × Bool)), ds ≠ [] → t ≠ sign neg ++ chZero :: chLowerX :: hexadecimal ds) →
      num t = .error .badToken

/-- The Register-Immediate immediate is the 12-bit sign extension of the token's value: the value itself up to 2047, the
value less 4096 above. The admitted range is the spec's decision (92_eei_decisions.md D6). -/
def Obligations.Imm12IsTwelveBitSignExtension : Prop :=
  ∀ v : Int,
    (-2048 ≤ v ∧ v ≤ 4095 →
        ∃ imm, imm12 v = .ok imm ∧ imm = ((wrap32 v).setWidth 12).signExtend 32 ∧
          imm.toInt = if v ≤ 2047 then v else v - 4096) ∧
      (v < -2048 ∨ 4095 < v → imm12 v = .error .immediateOutOfRange)

/-- The memory offset is the token's value as it stands; the `lui` immediate is the value of 20 bits, unsigned. Both are
decisions of the spec (92_eei_decisions.md D7, D8). -/
def Obligations.OffsetAndUpperImmediateAreTakenAsWritten : Prop :=
  (∀ v : Int, -(2 ^ 31) ≤ v → v ≤ 2 ^ 31 - 1 → ∃ w, off32 v = .ok w ∧ w.toInt = v) ∧
    (∀ v : Int, 0 ≤ v → v ≤ 0xFFFFF → ∃ w, imm20 v = .ok w ∧ (w.toNat : Int) = v) ∧
    ∀ v : Int, v < 0 ∨ 0xFFFFF < v → imm20 v = .error .immediateOutOfRange

/-- The refusal reported is the first failing check, whatever stands after it: slots A, B, C in that order, and a number's
form and 32-bit range (`num`) before the range of its field; for three operands of a Register-Register,
Register-Immediate or Memory mnemonic, and for the two of `lui` (60_exceptions.md section 3; the order is the spec's
decision D14). -/
def Obligations.FirstFailingSlotIsReported : Prop :=
  let token : Text → Prop := fun t => t ≠ [] ∧ ∀ x ∈ t, x ∉ [chSpace, chComma, chOpen, chClose, chNul]
  (∀ (m : Mnemonic) (a b c : Text) (r : DecodeRefusal), token a → token b → token c → m.shape ≠ .upperImmediate →
    let result := decode (mnemonicText m ++ chSpace :: (a ++ chComma :: (b ++ chComma :: c)))
    (reg a = .error r → result = .refuse r) ∧
      (∀ ra, reg a = .ok ra →
        (m.shape ≠ .memory → reg b = .error r → result = .refuse r) ∧
          (m.shape = .memory → num b = .error r → result = .refuse r) ∧
          (m.shape = .registerRegister → ∀ rb, reg b = .ok rb → reg c = .error r → result = .refuse r) ∧
          (m.shape = .registerImmediate → ∀ rb, reg b = .ok rb →
            (num c = .error r → result = .refuse r) ∧
              ∀ v, num c = .ok v → imm12 v = .error r → result = .refuse r) ∧
          (m.shape = .memory → ∀ v, num b = .ok v → reg c = .error r → result = .refuse r))) ∧
    ∀ (a b : Text) (r : DecodeRefusal), token a → token b →
      let result := decode (mnemonicText .lui ++ chSpace :: (a ++ chComma :: b))
      (reg a = .error r → result = .refuse r) ∧
        ∀ ra, reg a = .ok ra →
          (num b = .error r → result = .refuse r) ∧
            ∀ v, num b = .ok v → imm20 v = .error r → result = .refuse r

/-! ### Reset, the host's transactions and the run -/

/-- After `create_session` all thirty-two registers are 0, no key is present and every address reads 0, `size` is 0,
the host's index is 0 (the spec's own, D11); and the hidden store, for any `BUCKET_COUNT`, is that many empty
lists (10_state.md section 8). -/
def Obligations.ResetState : Prop :=
  (∀ n : Word, 1 ≤ n.toInt → createSession n = .next State.reset) ∧
    (∀ r, State.reset.readReg r = 0#32) ∧
    (∀ a, State.reset.memory.lookup a = none ∧ State.reset.memory.get a = 0#8) ∧
    State.reset.memory.size = 0 ∧ State.reset.seq = 0 ∧
    ∀ n, (BucketStore.init n).buckets.length = n ∧ (∀ c ∈ (BucketStore.init n).buckets, c = []) ∧
      (BucketStore.init n).size = 0

/-- The reset state meets the invariant. -/
def Obligations.ResetMeetsTheInvariant : Prop := State.reset.Inv

/-- From every state that meets the invariant, reachable or not, a step gives a state that meets it: the store keeps its
canonical form and its counter stays the number of addresses written (10_state.md section 6: the spec's inference). -/
def Obligations.StepKeepsTheInvariant : Prop :=
  ∀ s t : State, s.Inv → step s = .next t → t.Inv

/-- `create_session` with a bucket count of 0 or less is refused and no session comes to exist; with any other count it
answers the reset state (70_reset_and_hazards.md section 1; the range of the count is the spec's decision D13). -/
def Obligations.CreateSessionNeedsPositiveBucketCount : Prop :=
  ∀ n : Word,
    (n.toInt ≤ 0 → createSession n = .refused .bucketCount) ∧ (1 ≤ n.toInt → createSession n = .next State.reset)

/-- `read_register` gives the signed value of a register 0 to 31; `read_memory` gives `get(address)`, a value in 0 to 255
(00_scope.md section 5). That `read_register` is refused elsewhere is the spec's decision D14. -/
def Obligations.HostReadsRegistersAndCells : Prop :=
  ∀ s : State,
    (∀ r : RegIndex, readRegister s (r.val : Int) = .ok (s.readReg r).toInt) ∧
      (∀ n : Int, n < 0 ∨ 31 < n → readRegister s n = .error .badRegisterIndex) ∧
      ∀ a : Word, readMemory s a = (s.memory.get a).toNat ∧ readMemory s a ≤ 255

/-- A step runs the decoded instruction: when the host's next text decodes to `i`, the step is `exec i` with the host's
index moved on by 1; a skip moves the index alone; a refusal has no next state; with no text left nothing happens (the
last is Log 5, and the index is the spec's decision D11). -/
def Obligations.StepRunsTheDecodedInstruction : Prop :=
  ∀ s : State,
    (∀ text, s.program[s.seq]? = some text →
        (∀ i, decode text = .instr i → step s = exec i { s with seq := s.seq + 1 }) ∧
          (decode text = .skip → step s = .next { s with seq := s.seq + 1 }) ∧
          ∀ r, decode text = .refuse r → step s = .refused (.decode r)) ∧
      (s.program[s.seq]? = none → step s = .next s)

/-- An `execute` transaction is executed, skipped or refused, as its text decodes (60_exceptions.md section 5; that undefined
input is refused is the spec's decision D14): executed gives the instruction's
next state, and in every state every instruction has one; skipped changes nothing but the host's own index. -/
def Obligations.ExecuteIsExecutedSkippedOrRefused : Prop :=
  (∀ (i : Instr) (s : State), ∃ t, exec i s = .next t) ∧
    ∀ (text : Text) (s : State),
      (∃ i t, decode text = .instr i ∧ execute text s = .next t ∧ exec i { s with seq := s.seq + 1 } = .next t) ∨
        (decode text = .skip ∧ execute text s = .next { s with seq := s.seq + 1 }) ∨
        ∃ r, decode text = .refuse r ∧ execute text s = .refused (.decode r)

/-- A word of the opcode table that decodes is what the very next step runs once it stands where the host's next text is
taken from; that a row's operands are completed with zeros is the model's choice (Log 3, Log 6). -/
def Obligations.TableWordIsRunNext : Prop :=
  ∀ (s : State) (nbits w : Nat) (i : Instr), decodeTableWord nbits w = some i →
    step (s.withFetchWord nbits w) = exec i { s.withFetchWord nbits w with seq := s.seq + 1 } ∧
      (s.withFetchWord nbits w).regs = s.regs ∧ (s.withFetchWord nbits w).memory = s.memory

/-- Every program is straight-line: where no text of the host's list is refused, any number of steps runs, each text in
list order and once, and the list is never changed (44_unknown.md section on control transfer; 00_scope.md section 5).
Steps after the last text change nothing (Log 5). -/
def Obligations.AdmittedProgramRunsInOrder : Prop :=
  ∀ (s : State) (n : Nat), s.admitted = true → s.seq ≤ s.program.length →
    ∃ t : State, Host.Core.run Sys2Proof.core n s = .next t ∧ t.program = s.program ∧
      t.seq = min (s.seq + n) s.program.length

/-- Instruction fetch is not a memory access: the text that comes next does not depend on memory, and no step
changes the list of texts, so a store never changes a later instruction (20_memory.md section 7; that State
holds the host's list is the model's choice, Log 3). -/
def Obligations.StoresNeverChangeInstructions : Prop :=
  (∀ (s : State) (m : Memory), nextText { s with memory := m } = nextText s) ∧
    ∀ s t : State, step s = .next t → t.program = s.program

/-- No instruction reads or writes its own position or the host's list (10_state.md section 2; the index is the spec's
decision D11). -/
def Obligations.InstructionsDoNotObserveTheHost : Prop :=
  ∀ (i : Instr) (s : State) (p : List Text) (n : Nat),
    ∃ t, exec i s = .next t ∧ t.program = s.program ∧ t.seq = s.seq ∧
      exec i { s with program := p, seq := n } = .next { t with program := p, seq := n }

/-! ### Registers -/

/-- R22: register 0 holds 0 after reset and is an ordinary register: whatever an instruction would put in any destination
it puts in `x0` when `x0` is the destination, and a later read of `x0` returns it. -/
def Obligations.RegisterZeroIsOrdinary : Prop :=
  State.reset.readReg 0 = 0#32 ∧
    (∀ (s : State) (rs1 rs2 : RegIndex) (imm : Word),
      let sameInEvery : (RegIndex → Instr) → Prop := fun i =>
        ∃ v, ∀ rd, ∃ t, exec (i rd) s = .next t ∧ t.readReg rd = v
      sameInEvery (fun rd => .add rd rs1 rs2) ∧ sameInEvery (fun rd => .sub rd rs1 rs2) ∧
        sameInEvery (fun rd => .and rd rs1 rs2) ∧ sameInEvery (fun rd => .or rd rs1 rs2) ∧
        sameInEvery (fun rd => .xor rd rs1 rs2) ∧ sameInEvery (fun rd => .slt rd rs1 rs2) ∧
        sameInEvery (fun rd => .sll rd rs1 rs2) ∧ sameInEvery (fun rd => .sra rd rs1 rs2) ∧
        sameInEvery (fun rd => .addi rd rs1 imm) ∧ sameInEvery (fun rd => .andi rd rs1 imm) ∧
        sameInEvery (fun rd => .ori rd rs1 imm) ∧ sameInEvery (fun rd => .xori rd rs1 imm) ∧
        sameInEvery (fun rd => .slti rd rs1 imm) ∧ sameInEvery (fun rd => .lw rd imm rs1) ∧
        sameInEvery (fun rd => .lb rd imm rs1) ∧ sameInEvery (fun rd => .lui rd imm)) ∧
    ∃ t u, exec (.addi 0 0 5#32) State.reset = .next t ∧ t.readReg 0 = 5#32 ∧ exec (.add 1 0 0) t = .next u ∧
      u.readReg 1 = 10#32

/-- Which registers each shape reads and writes (10_state.md section 1; the selects' names are the spec's decision D2).
The table of the spec, and that it is the truth about `exec`: the result and the memory depend on no register that the read selects do not name, and no register but the write select's
changes. -/
def Obligations.RegistersReadAndWrittenPerShape : Prop :=
  (∀ rd rs1 rs2 : RegIndex, ∀ p ∈ [ports (.add rd rs1 rs2), ports (.sub rd rs1 rs2), ports (.and rd rs1 rs2),
      ports (.or rd rs1 rs2), ports (.xor rd rs1 rs2), ports (.slt rd rs1 rs2), ports (.sll rd rs1 rs2),
      ports (.sra rd rs1 rs2)], p = ⟨some rs1, some rs2, some rd⟩) ∧
    (∀ (rd rs1 : RegIndex) (imm : Word), ∀ p ∈ [ports (.addi rd rs1 imm), ports (.andi rd rs1 imm),
      ports (.ori rd rs1 imm), ports (.xori rd rs1 imm), ports (.slti rd rs1 imm), ports (.lw rd imm rs1),
      ports (.lb rd imm rs1)], p = ⟨some rs1, none, some rd⟩) ∧
    (∀ (rd rs1 : RegIndex) (offset : Word), ∀ p ∈ [ports (.sw rd offset rs1), ports (.sb rd offset rs1)],
      p = ⟨some rs1, some rd, none⟩) ∧
    (∀ (rd : RegIndex) (imm : Word), ports (.lui rd imm) = ⟨none, none, some rd⟩) ∧
    (∀ text : Text, decode text = .skip → textPorts text = some ⟨none, none, none⟩) ∧
    ∀ (i : Instr) (s s' : State),
      (∀ r, (ports i).read1 = some r ∨ (ports i).read2 = some r → s.readReg r = s'.readReg r) →
      s.memory = s'.memory →
      ∃ t t', exec i s = .next t ∧ exec i s' = .next t' ∧ t.memory = t'.memory ∧
        (∀ r, (ports i).write = some r → t.readReg r = t'.readReg r) ∧
        ∀ r, (ports i).write ≠ some r → t.readReg r = s.readReg r ∧ t'.readReg r = s'.readReg r

/-! ### Register-Register -/

/-- R111, R112: `add` and `sub` are exact sums and differences of signed values, wrapped to 32 bits; nothing else
changes. -/
def Obligations.AddAndSubWrap : Prop :=
  ∀ (rd rs1 rs2 : RegIndex) (s : State),
    (decode ([0x61#8, 0x64#8, 0x64#8, 0x20#8] ++ registerRegisterOperands rd rs1 rs2) = .instr (.add rd rs1 rs2) ∧
        ∃ t, exec (.add rd rs1 rs2) s = .next t ∧
          s.WritesOnly t rd (wrap32 ((s.readReg rs1).toInt + (s.readReg rs2).toInt))) ∧
      decode ([0x73#8, 0x75#8, 0x62#8, 0x20#8] ++ registerRegisterOperands rd rs1 rs2) = .instr (.sub rd rs1 rs2) ∧
        ∃ t, exec (.sub rd rs1 rs2) s = .next t ∧
          s.WritesOnly t rd (wrap32 ((s.readReg rs1).toInt - (s.readReg rs2).toInt))

/-- R113, R114, R115: `and`, `or` and `xor` work bit by bit; nothing else changes. -/
def Obligations.AndOrXorAreBitwise : Prop :=
  ∀ (rd rs1 rs2 : RegIndex) (s : State),
    let bitwise : Instr → (Bool → Bool → Bool) → Prop := fun i f =>
      ∃ t v, exec i s = .next t ∧ s.WritesOnly t rd v ∧
        ∀ k < 32, v.getLsbD k = f ((s.readReg rs1).getLsbD k) ((s.readReg rs2).getLsbD k)
    (decode ([0x61#8, 0x6E#8, 0x64#8, 0x20#8] ++ registerRegisterOperands rd rs1 rs2) = .instr (.and rd rs1 rs2) ∧
        bitwise (.and rd rs1 rs2) Bool.and) ∧
      (decode ([0x6F#8, 0x72#8, 0x20#8] ++ registerRegisterOperands rd rs1 rs2) = .instr (.or rd rs1 rs2) ∧
        bitwise (.or rd rs1 rs2) Bool.or) ∧
      decode ([0x78#8, 0x6F#8, 0x72#8, 0x20#8] ++ registerRegisterOperands rd rs1 rs2) = .instr (.xor rd rs1 rs2) ∧
        bitwise (.xor rd rs1 rs2) Bool.xor

/-- R116: `slt` writes 1 if the first source is less than the second as signed values, else 0; nothing else changes. -/
def Obligations.SltComparesSigned : Prop :=
  ∀ (rd rs1 rs2 : RegIndex) (s : State),
    decode ([0x73#8, 0x6C#8, 0x74#8, 0x20#8] ++ registerRegisterOperands rd rs1 rs2) = .instr (.slt rd rs1 rs2) ∧
      ∃ t, exec (.slt rd rs1 rs2) s = .next t ∧
        s.WritesOnly t rd (if (s.readReg rs1).toInt < (s.readReg rs2).toInt then 1#32 else 0#32)

/-- `sll` multiplies the unsigned value by a power of two and wraps; `sra` divides the signed value by it, rounding down;
nothing else changes. The amount is the low five bits of the second source: outside 0 to 31 that is the spec's decision
D10 (40_register_register.md sections 1 and 3; Log 8). -/
def Obligations.ShiftsUseTheLowFiveBits : Prop :=
  ∀ (rd rs1 rs2 : RegIndex) (s : State),
    let sh := (s.readReg rs2).toNat % 32
    (0 ≤ (s.readReg rs2).toInt → (s.readReg rs2).toInt ≤ 31 → (sh : Int) = (s.readReg rs2).toInt) ∧
      (∃ t, exec (.sll rd rs1 rs2) s = .next t ∧
        s.WritesOnly t rd (BitVec.ofNat 32 ((s.readReg rs1).toNat * 2 ^ sh))) ∧
      ∃ t, exec (.sra rd rs1 rs2) s = .next t ∧ s.WritesOnly t rd (wrap32 ((s.readReg rs1).toInt / 2 ^ sh))

/-! ### Register-Immediate -/

/-- R130: `addi` is the exact sum of the signed values, wrapped; the token's value is taken as a 12-bit two's-complement
value. Nothing else changes. -/
def Obligations.AddiWraps : Prop :=
  ∀ (rd rs1 : RegIndex) (s : State),
    (∀ v : Int, -2048 ≤ v → v ≤ 4095 →
        decode ([0x61#8, 0x64#8, 0x64#8, 0x69#8, 0x20#8] ++
            (regText rd ++ (commaSpace ++ (regText rs1 ++ (commaSpace ++ intText v))))) =
          .instr (.addi rd rs1 (((wrap32 v).setWidth 12).signExtend 32))) ∧
      ∀ imm : Word, ∃ t, exec (.addi rd rs1 imm) s = .next t ∧
        s.WritesOnly t rd (wrap32 ((s.readReg rs1).toInt + imm.toInt))

/-- R131, R132, R133: `andi`, `ori` and `xori` work bit by bit on the sign-extended immediate; nothing else changes. -/
def Obligations.AndiOriXoriAreBitwise : Prop :=
  ∀ (rd rs1 : RegIndex) (s : State),
    let bitwise : Instr → Word → (Bool → Bool → Bool) → Prop := fun i imm f =>
      ∃ t v, exec i s = .next t ∧ s.WritesOnly t rd v ∧
        ∀ k < 32, v.getLsbD k = f ((s.readReg rs1).getLsbD k) (imm.getLsbD k)
    let operands : Int → Text := fun v => regText rd ++ (commaSpace ++ (regText rs1 ++ (commaSpace ++ intText v)))
    let imm12Bits : Int → Word := fun v => ((wrap32 v).setWidth 12).signExtend 32
    (∀ v : Int, -2048 ≤ v → v ≤ 4095 →
        decode ([0x61#8, 0x6E#8, 0x64#8, 0x69#8, 0x20#8] ++ operands v) = .instr (.andi rd rs1 (imm12Bits v)) ∧
          decode ([0x6F#8, 0x72#8, 0x69#8, 0x20#8] ++ operands v) = .instr (.ori rd rs1 (imm12Bits v)) ∧
          decode ([0x78#8, 0x6F#8, 0x72#8, 0x69#8, 0x20#8] ++ operands v) = .instr (.xori rd rs1 (imm12Bits v))) ∧
      ∀ imm : Word, bitwise (.andi rd rs1 imm) imm Bool.and ∧ bitwise (.ori rd rs1 imm) imm Bool.or ∧
        bitwise (.xori rd rs1 imm) imm Bool.xor

/-- R134: `slti` compares with the sign-extended immediate as signed values; nothing else changes. -/
def Obligations.SltiComparesSigned : Prop :=
  ∀ (rd rs1 : RegIndex) (s : State),
    (∀ v : Int, -2048 ≤ v → v ≤ 4095 →
        decode ([0x73#8, 0x6C#8, 0x74#8, 0x69#8, 0x20#8] ++
            (regText rd ++ (commaSpace ++ (regText rs1 ++ (commaSpace ++ intText v))))) =
          .instr (.slti rd rs1 (((wrap32 v).setWidth 12).signExtend 32))) ∧
      ∀ imm : Word, ∃ t, exec (.slti rd rs1 imm) s = .next t ∧
        s.WritesOnly t rd (if (s.readReg rs1).toInt < imm.toInt then 1#32 else 0#32)

/-! ### Upper-Immediate -/

/-- `lui` puts the 20 bits of the immediate in bits 31 to 12 and zeros below, whatever the register held; nothing
else changes. That a number outside 0 to 0xFFFFF is refused is the spec's decision D8. -/
def Obligations.LuiPlacesTheUpperBits : Prop :=
  ∀ (rd : RegIndex) (s : State),
    (∀ v : Int, 0 ≤ v → v ≤ 0xFFFFF →
        decode ([0x6C#8, 0x75#8, 0x69#8, 0x20#8] ++ (regText rd ++ (commaSpace ++ intText v))) =
          .instr (.lui rd (wrap32 v))) ∧
      (∀ v : Int, -(2 ^ 31) ≤ v → v ≤ 2 ^ 31 - 1 → v < 0 ∨ 0xFFFFF < v →
        decode ([0x6C#8, 0x75#8, 0x69#8, 0x20#8] ++ (regText rd ++ (commaSpace ++ intText v))) =
          .refuse .immediateOutOfRange) ∧
      ∀ imm : Word, ∃ t, exec (.lui rd imm) s = .next t ∧ s.WritesOnly t rd (wrap32 (imm.toNat * 2 ^ 12)) ∧
        ∀ k < 32, (t.readReg rd).getLsbD k = (decide (12 ≤ k) && imm.getLsbD (k - 12))

/-! ### Memory -/

/-- The effective address and the byte addresses of a word are exact sums wrapped to 32 bits (the spec's decision D9),
and the four byte addresses are distinct (20_memory.md section 1). -/
def Obligations.EffectiveAddressWraps : Prop :=
  (∀ (s : State) (rs1 : RegIndex) (offset : Word),
      effectiveAddress s rs1 offset = wrap32 ((s.readReg rs1).toInt + offset.toInt)) ∧
    ∀ ea : Word, (∀ i : Nat, byteAddress ea i = wrap32 (ea.toInt + i)) ∧
      ∀ i j : Nat, i < 4 → j < 4 → byteAddress ea i = byteAddress ea j → i = j

/-- `lw`: the destination gets the four bytes at the effective address, the lowest address least significant; nothing
else changes, memory and its counter included. The wrap of the addresses is the spec's decision D9
(42_memory_access.md; 20_memory.md sections 1 and 4). -/
def Obligations.LoadWordAssemblesLittleEndian : Prop :=
  ∀ (rd : RegIndex) (offset : Word) (rs1 : RegIndex) (s : State),
    let ea := wrap32 ((s.readReg rs1).toInt + offset.toInt)
    let b : Nat → Nat := fun i => (s.memory.get (wrap32 (ea.toInt + i))).toNat
    ∃ t v, exec (.lw rd offset rs1) s = .next t ∧ s.WritesOnly t rd v ∧
      v.toNat = b 0 + 2 ^ 8 * b 1 + 2 ^ 16 * b 2 + 2 ^ 24 * b 3

/-- `lb`: the destination gets the byte at the effective address, sign-extended from bit 7; nothing else changes. The
wrap of the address is the spec's decision D9 (42_memory_access.md; 20_memory.md sections 1 and 4). -/
def Obligations.LoadByteSignExtends : Prop :=
  ∀ (rd : RegIndex) (offset : Word) (rs1 : RegIndex) (s : State),
    let b := (s.memory.get (wrap32 ((s.readReg rs1).toInt + offset.toInt))).toNat
    ∃ t v, exec (.lb rd offset rs1) s = .next t ∧ s.WritesOnly t rd v ∧
      v.toInt = if b < 128 then (b : Int) else (b : Int) - 256

/-- `sw`: the four bytes of the value register go to the four addresses from the effective address up, least significant
first; every other address reads as before and is present as before; no register changes; `size` grows by the number of
the four addresses that were absent. The addresses are computed with the meaning's own functions, and are the wrapped
sums that the spec's decision D9 gives (42_memory_access.md; 20_memory.md sections 1, 2 and 4). -/
def Obligations.StoreWordWritesFourBytes : Prop :=
  ∀ (rd : RegIndex) (offset : Word) (rs1 : RegIndex) (s : State),
    let ea := effectiveAddress s rs1 offset
    ea = wrap32 ((s.readReg rs1).toInt + offset.toInt) ∧
      (∀ i < 4, byteAddress ea i = wrap32 (ea.toInt + i)) ∧
      ∃ t, exec (.sw rd offset rs1) s = .next t ∧ s.KeepsRegisters t ∧
        (∀ i < 4, t.memory.present (byteAddress ea i) = true ∧
          t.memory.get (byteAddress ea i) = BitVec.ofNat 8 ((s.readReg rd).toNat / 2 ^ (8 * i))) ∧
        (∀ a, (∀ i < 4, a ≠ byteAddress ea i) →
          t.memory.get a = s.memory.get a ∧ t.memory.present a = s.memory.present a) ∧
        t.memory.size =
          s.memory.size + ((List.range 4).filter fun i => !s.memory.present (byteAddress ea i)).length

/-- `sb`: the low byte of the value register goes to the effective address; every other address reads as before and is
present as before; no register changes; `size` grows by 1 where the address was absent. The address is computed with the
meaning's own function, and is the wrapped sum that the spec's decision D9 gives (42_memory_access.md; 20_memory.md
sections 1, 2 and 4). -/
def Obligations.StoreByteWritesOneByte : Prop :=
  ∀ (rd : RegIndex) (offset : Word) (rs1 : RegIndex) (s : State),
    let ea := effectiveAddress s rs1 offset
    ea = wrap32 ((s.readReg rs1).toInt + offset.toInt) ∧
      ∃ t, exec (.sb rd offset rs1) s = .next t ∧ s.KeepsRegisters t ∧
        t.memory.present ea = true ∧ t.memory.get ea = BitVec.ofNat 8 (s.readReg rd).toNat ∧
        (∀ a, a ≠ ea → t.memory.get a = s.memory.get a ∧ t.memory.present a = s.memory.present a) ∧
        t.memory.size = if s.memory.present ea then s.memory.size else s.memory.size + 1

/-- In a store the FIRST token names the register whose value is stored; it is read, and no register is
written (42_memory_access.md; that the address is a wrapped sum is the spec's decision D9). -/
def Obligations.StoresReadTheirFirstOperand : Prop :=
  ∀ (rd : RegIndex) (offset : Word) (rs1 : RegIndex) (s : State),
    (decode ([0x73#8, 0x77#8, 0x20#8] ++ memoryOperands rd offset rs1) = .instr (.sw rd offset rs1) ∧
        ∃ t, exec (.sw rd offset rs1) s = .next t ∧ (∀ r, t.readReg r = s.readReg r) ∧
          t.memory.readWord (effectiveAddress s rs1 offset) = s.readReg rd) ∧
      decode ([0x73#8, 0x62#8, 0x20#8] ++ memoryOperands rd offset rs1) = .instr (.sb rd offset rs1) ∧
        ∃ t, exec (.sb rd offset rs1) s = .next t ∧ (∀ r, t.readReg r = s.readReg r) ∧
          t.memory.readByte (effectiveAddress s rs1 offset) = (s.readReg rd).setWidth 8

/-- Accesses of different widths compose byte by byte: a byte load after a word store, a word load after a word store, a
word load after a byte store, a byte load after a byte store (20_memory.md section 5, the spec's inference; the source's
two round-trip properties, 95_test_vectors.md section 1.5). -/
def Obligations.MixedSizeAccessesCompose : Prop :=
  ∀ (rd : RegIndex) (offset : Word) (rs1 : RegIndex) (s : State),
    let ea := effectiveAddress s rs1 offset
    let x := (s.readReg rd).toNat
    (∃ t, exec (.sw rd offset rs1) s = .next t ∧
        (∀ (i : Nat) (rd2 : RegIndex) (offset2 : Word) (rs2 : RegIndex), i < 4 →
          effectiveAddress t rs2 offset2 = byteAddress ea i →
          ∃ u, exec (.lb rd2 offset2 rs2) t = .next u ∧
            u.readReg rd2 = (BitVec.ofNat 8 (x / 2 ^ (8 * i))).signExtend 32) ∧
        ∀ rd2 : RegIndex, ∃ u, exec (.lw rd2 offset rs1) t = .next u ∧ u.readReg rd2 = s.readReg rd) ∧
      ∃ t, exec (.sb rd offset rs1) s = .next t ∧
        ∀ rd2 : RegIndex,
          (∃ u, exec (.lw rd2 offset rs1) t = .next u ∧
            (u.readReg rd2).toNat = (s.memory.readWord ea).toNat / 256 * 256 + x % 256) ∧
            ∃ u, exec (.lb rd2 offset rs1) t = .next u ∧ u.readReg rd2 = (BitVec.ofNat 8 x).signExtend 32

/-- Register-Register, Register-Immediate and Upper-Immediate instructions neither consult nor change the store
(00_scope.md section 5; 10_state.md section 6). -/
def Obligations.OnlyMemoryShapesTouchTheStore : Prop :=
  ∀ (i : Instr) (s : State) (m : Memory), i.shape ≠ .memory →
    ∃ t, exec i s = .next t ∧ t.memory = s.memory ∧ exec i { s with memory := m } = .next { t with memory := m }

/-- The marshaling unit: the widening that `lb` uses copies bit 7 up; the assembly that `lw` uses zero-extends its bytes
before they are shifted into place; the bytes that a store writes are truncated to 8 bits (20_memory.md section 4). -/
def Obligations.BytesWidenAndNarrow : Prop :=
  (∀ b : Byte, (signExtendByte b).toInt = if b.toNat < 128 then (b.toNat : Int) else (b.toNat : Int) - 256) ∧
    (∀ b0 b1 b2 b3 : Byte,
      (assembleWord b0 b1 b2 b3).toNat = b0.toNat + 2 ^ 8 * b1.toNat + 2 ^ 16 * b2.toNat + 2 ^ 24 * b3.toNat) ∧
    ∀ (v : Word) (i : Nat), i < 4 → (byteOf v i).toNat = v.toNat / 2 ^ (8 * i) % 2 ^ 8

/-- `put` overwrites a present key and leaves `size`, or adds an absent key and adds 1, for every value, 0 too; it
touches no other key and removes none (20_memory.md section 2; that a `put` of 0 counts is the spec's inference). -/
def Obligations.PutOverwritesOrInserts : Prop :=
  ∀ (m : Memory) (key : Word) (v : Byte),
    (m.put key v).lookup key = some v ∧
      (∀ q, q ≠ key → (m.put key v).lookup q = m.lookup q) ∧
      (m.present key = true → (m.put key v).size = m.size) ∧
      (m.present key = false → (m.put key v).size = m.size + 1)

/-- After any sequence of `put`s on a fresh store, `get` returns the value put last at the key, or 0 where the
key is absent, and `size` is the number of distinct keys ever inserted, at most 2^32 (the counter is an unbounded
natural number: the spec's D16; 20_memory.md section 2). -/
def Obligations.StoreHistoryDeterminesGetAndSize : Prop :=
  ∀ ps : List (Word × Byte),
    let m := ps.foldl (fun m p => m.put p.1 p.2) Memory.empty
    (∀ a, m.get a = ((ps.reverse.find? fun p => decide (p.1 = a)).map Prod.snd).getD 0#8) ∧
      (∀ a, m.present a = true ↔ a ∈ ps.map Prod.fst) ∧ m.size = (ps.map Prod.fst).dedup.length ∧ m.size ≤ 2 ^ 32

/-- The canonical form is one: two memories in it that give every address the same cell are the same data. (The form is
the model's choice, Log 1.) -/
def Obligations.CanonicalMemoriesAreEqual : Prop :=
  ∀ m m' : Memory, m.wf → m'.wf → (∀ a, m.lookup a = m'.lookup a) → m = m'

/-- The order of `put`s at different keys cannot be observed, so the four of a word store are one update
(20_memory.md section 4; the spec's decision D21). -/
def Obligations.PutsAtDifferentKeysCommute : Prop :=
  ∀ (m : Memory) (k k' : Word) (v v' : Byte), m.wf → k ≠ k' → (m.put k v).put k' v' = (m.put k' v').put k v

/-- Every step changes memory by exactly the `put`s of the bytes that its instruction stores (`stepStores`: four for `sw`,
one for `sb`, none otherwise) and by no others: every other address reads as before and is present as before; a key once
present stays present; `size` never falls and grows by at most 4; under the invariant it is the number of keys and at
most 2^32 (10_state.md section 6, the spec's inference; 20_memory.md sections 2 and 4). -/
def Obligations.StepsOnlyPut : Prop :=
  ∀ s t : State, step s = .next t →
    t.memory = (stepStores s).foldl (fun m p => m.put p.1 p.2) s.memory ∧
      (stepStores s).length ≤ 4 ∧
      (∀ a, a ∉ (stepStores s).map Prod.fst →
        t.memory.get a = s.memory.get a ∧ t.memory.present a = s.memory.present a) ∧
      (∀ a, s.memory.present a = true → t.memory.present a = true) ∧
      s.memory.size ≤ t.memory.size ∧ t.memory.size ≤ s.memory.size + 4 ∧
      (s.Inv → t.memory.size = t.memory.keys.length ∧ t.memory.size ≤ 2 ^ 32)

/-! ### The hidden organisation of the store -/

/-- The bucket index is in range, keys `k` and `-k` share a bucket, and the most negative key is hashed by its absolute
value in unbounded integers (20_memory.md section 3; the last is the spec's decision D13). -/
def Obligations.BucketHashFoldsTheSign : Prop :=
  ∀ (n : Nat) (key : Word), 0 < n →
    bucketHash n key < n ∧ bucketHash n (-key) = bucketHash n key ∧
      (0 ≤ key.toInt → bucketHash n key = key.toNat % n) ∧ bucketHash n 0x80000000#32 = 2147483648 % n

/-- R48: a lookup that finds no match in the targeted bucket terminates and returns 0, whatever the bucket and the rest of
the store hold. (What a lookup that finds one returns is R47, the next statement.) -/
def Obligations.BucketMissReadsZero : Prop :=
  ∀ (b : BucketStore) (key : Word), (∀ n ∈ b.chain key, n.1 ≠ key) → b.get key = 0#8

/-- R47: where the selected bucket has a node of the key, `put` overwrites that node's value in place; where it has none,
`put` puts a new node before the others; every other bucket is untouched and the array keeps its length, however full.
`get` finds the node wherever it stands in the list. (That a key has at most one node is the invariant of 10_state.md
R33, a premise here.) -/
def Obligations.BucketScanOverwritesOrPrepends : Prop :=
  ∀ (b : BucketStore) (key : Word) (v : Byte), 0 < b.buckets.length → b.wf →
    ((∃ n ∈ b.chain key, n.1 = key) →
        (b.put key v).chain key = (b.chain key).map fun n => if n.1 = key then (key, v) else n) ∧
      ((∀ n ∈ b.chain key, n.1 ≠ key) → (b.put key v).chain key = (key, v) :: b.chain key) ∧
      (∀ j, j ≠ bucketHash b.buckets.length key → (b.put key v).buckets.getD j [] = b.buckets.getD j []) ∧
      (b.put key v).buckets.length = b.buckets.length ∧
      ∀ w, (key, w) ∈ b.chain key → b.get key = w

/-- The bucket array keeps its two invariants: unique keys within a bucket, and each key in at most one node of the whole
store (10_state.md section 7). -/
def Obligations.BucketStoreKeepsKeysUnique : Prop :=
  (∀ n, (BucketStore.init n).wf) ∧
    (∀ (b : BucketStore) (key : Word) (v : Byte), 0 < b.buckets.length → b.wf → (b.put key v).wf) ∧
    ∀ b : BucketStore, b.wf → (b.buckets.flatten.map Prod.fst).Nodup

/-- The bucket store refines the map, for every `BUCKET_COUNT`: after any sequence of `put`s on fresh stores, every `get`
and `size` agree. So neither the count nor the buckets change any result (20_memory.md section 3, the spec's
inference). -/
def Obligations.BucketStoreRefinesTheMap : Prop :=
  ∀ (n : Nat) (ps : List (Word × Byte)), 0 < n →
    let b := ps.foldl (fun b p => b.put p.1 p.2) (BucketStore.init n)
    let m := ps.foldl (fun m p => m.put p.1 p.2) Memory.empty
    (∀ a, b.get a = m.get a) ∧ b.size = m.size ∧ b.buckets.length = n
end

