-- ==== Sys2Proof/Laws/Buckets.lean ====
section
/-! SUPPORT. Lemmas about the bucket lists (20_memory.md R46 to R48). -/
namespace Sys2Proof.Machine

theorem bucketHash_lt {n : Nat} (h : 0 < n) (key : Word) : bucketHash n key < n := Nat.mod_lt _ h

theorem chainLookup_overwrite {ns : List Node} {key : Word} (v : Byte) (q : Word) (h : (chainLookup ns key).isSome) :
    chainLookup (chainOverwrite ns key v) q = if q = key then some v else chainLookup ns q := by
  induction ns with
  | nil => simp [chainLookup] at h
  | cons n ns ih =>
    by_cases hk : n.1 = key
    · by_cases hq : q = key
      · simp [chainOverwrite, chainLookup, hk, hq]
      · simp [chainOverwrite, chainLookup, hk, hq, Ne.symm hq]
    · have h' : (chainLookup ns key).isSome := by simpa [chainLookup, hk] using h
      by_cases hn : n.1 = q
      · have hq : ¬ q = key := fun e => hk (hn.trans e)
        simp [chainOverwrite, chainLookup, hn, hq]
      · simp [chainOverwrite, chainLookup, hk, hn, ih h']

theorem chainLookup_eq_none {ns : List Node} {key : Word} :
    chainLookup ns key = none ↔ ∀ n ∈ ns, n.1 ≠ key := by
  induction ns with
  | nil => simp [chainLookup]
  | cons n ns ih =>
    by_cases hk : n.1 = key <;> simp [chainLookup, hk, ih]

/-- Overwriting in place keeps the keys of a bucket list and their order. -/
theorem chainOverwrite_keys (ns : List Node) (key : Word) (v : Byte) :
    (chainOverwrite ns key v).map Prod.fst = ns.map Prod.fst := by
  induction ns with
  | nil => rfl
  | cons n ns ih =>
    by_cases hk : n.1 = key <;> simp [chainOverwrite, hk, ih]

/-- `put` never resizes the array (20_memory.md R47). -/
theorem BucketStore.put_length (b : BucketStore) (key : Word) (v : Byte) :
    (b.put key v).buckets.length = b.buckets.length := by
  unfold BucketStore.put; split <;> simp

theorem BucketStore.init_length (n : Nat) : (BucketStore.init n).buckets.length = n := by
  simp [BucketStore.init]

/-- The bucket list of a key after a `put` of any key. -/
theorem BucketStore.chain_put (b : BucketStore) (h : 0 < b.buckets.length) (key q : Word) (v : Byte) :
    (b.put key v).chain q =
      if bucketHash b.buckets.length q = bucketHash b.buckets.length key then
        (match chainLookup (b.chain key) key with
          | some _ => chainOverwrite (b.chain key) key v
          | none => (key, v) :: b.chain key)
      else b.chain q := by
  have hk := bucketHash_lt h key
  unfold BucketStore.put
  cases chainLookup (b.chain key) key <;>
    (simp only [BucketStore.chain, List.length_set, List.getD_eq_getElem?_getD, List.getElem?_set]
     split
     · rename_i e; simp [← e, hk]
     · rename_i e; rw [if_neg (Ne.symm e)])

/-- What a `put` does to a lookup of any key: the two buckets' contents play no part. -/
theorem BucketStore.lookup_put (b : BucketStore) (h : 0 < b.buckets.length) (key q : Word) (v : Byte) :
    chainLookup ((b.put key v).chain q) q = if q = key then some v else chainLookup (b.chain q) q := by
  rw [b.chain_put h]
  by_cases hq : q = key
  · subst hq
    simp only [if_true]
    cases hc : chainLookup (b.chain q) q with
    | none => simp [chainLookup]
    | some w => simp only; rw [chainLookup_overwrite v q (by simp [hc])]; simp
  · simp only [hq, if_false]
    split
    · rename_i e
      have hchain : b.chain key = b.chain q := by simp [BucketStore.chain, e]
      rw [hchain]
      cases hc : chainLookup (b.chain q) key with
      | none => simp [chainLookup, Ne.symm hq]
      | some w => simp only; rw [chainLookup_overwrite v q (by simp [hc])]; simp [hq]
    · rfl

theorem mem_chainOverwrite {ns : List Node} {key : Word} {v : Byte} {n : Node} (h : n ∈ chainOverwrite ns key v) :
    n.1 = key ∨ n ∈ ns := by
  induction ns with
  | nil => cases h
  | cons x xs ih =>
    by_cases hx : x.1 = key
    · simp only [chainOverwrite, hx, if_true, List.mem_cons] at h
      obtain rfl | h := h
      · exact .inl rfl
      · exact .inr (by simp [h])
    · simp only [chainOverwrite, hx, if_false, List.mem_cons] at h
      obtain rfl | h := h
      · exact .inr (by simp)
      · exact (ih h).imp id fun h => by simp [h]

/-- Every bucket list after a `put`. -/
theorem BucketStore.getD_put (b : BucketStore) (h : 0 < b.buckets.length) (key : Word) (v : Byte) (j : Nat) :
    (b.put key v).buckets.getD j [] =
      if j = bucketHash b.buckets.length key then
        (match chainLookup (b.chain key) key with
          | some _ => chainOverwrite (b.chain key) key v
          | none => (key, v) :: b.chain key)
      else b.buckets.getD j [] := by
  unfold BucketStore.put
  cases chainLookup (b.chain key) key <;>
    (simp only [List.getD_eq_getElem?_getD, List.getElem?_set]
     split
     · rename_i e; simp [← e, bucketHash_lt h key]
     · rename_i e; rw [if_neg (Ne.symm e)])

end Sys2Proof.Machine
end

