-- ==== Sys2Proof/Laws/Decode.lean ====
section
/-! SUPPORT. One lemma per function of the decoder, and the reading back of what the encoder writes token by token. -/
namespace Sys2Proof

/-! ### Splitting and classifying -/

theorem splitAtSpace_append (a rem : Text) (h : chSpace ∉ a) :
    splitAtSpace (a ++ chSpace :: rem) = some (a, rem) := by
  induction a with
  | nil => simp [splitAtSpace]
  | cons c cs ih =>
    simp only [List.mem_cons, not_or] at h
    simp [splitAtSpace, Ne.symm h.1, ih h.2]

theorem splitAtSpace_none {t : Text} : splitAtSpace t = none ↔ chSpace ∉ t := by
  induction t with
  | nil => simp [splitAtSpace]
  | cons c cs ih =>
    by_cases hc : c = chSpace
    · simp [splitAtSpace, hc]
    · simp [splitAtSpace, hc, ih, Ne.symm hc]

theorem splitAtSpace_some {t mn rem : Text} (h : splitAtSpace t = some (mn, rem)) :
    t = mn ++ chSpace :: rem ∧ chSpace ∉ mn := by
  induction t generalizing mn with
  | nil => simp [splitAtSpace] at h
  | cons c cs ih =>
    by_cases hc : c = chSpace
    · simp only [splitAtSpace, hc, if_true, Option.some.injEq, Prod.mk.injEq] at h
      obtain ⟨rfl, rfl⟩ := h
      simp [hc]
    · simp only [splitAtSpace, hc, if_false, Option.map_eq_some_iff, Prod.mk.injEq] at h
      obtain ⟨⟨x, y⟩, hp, rfl, rfl⟩ := h
      obtain ⟨rfl, hx⟩ := ih hp
      simp [hx, Ne.symm hc]

theorem mnemonicText_ne_nil (m : Mnemonic) : mnemonicText m ≠ [] := by cases m <;> decide

theorem chSpace_notMem_mnemonicText (m : Mnemonic) : chSpace ∉ mnemonicText m := by cases m <;> decide

theorem chNul_notMem_mnemonicText (m : Mnemonic) : chNul ∉ mnemonicText m := by cases m <;> decide

theorem mnemonicOf_mnemonicText (m : Mnemonic) : mnemonicOf (mnemonicText m) = some m := by cases m <;> decide

theorem mem_allMnemonics (m : Mnemonic) : m ∈ allMnemonics := by cases m <;> decide

theorem mnemonicOf_some {mn : Text} {m : Mnemonic} (h : mnemonicOf mn = some m) : mn = mnemonicText m := by
  have := List.find?_some h
  exact (of_decide_eq_true this).symm

theorem mnemonicOf_none {mn : Text} : mnemonicOf mn = none ↔ ∀ m, mnemonicText m ≠ mn := by
  unfold mnemonicOf
  rw [List.find?_eq_none]
  exact ⟨fun h m => by simpa using h m (mem_allMnemonics m), fun h m _ => by simpa using h m⟩

/-- The decoder on a text that splits and holds no NUL. -/
theorem decode_split (mn rem : Text) (hne : mn ≠ []) (hs : chSpace ∉ mn) (h0 : chNul ∉ mn ++ chSpace :: rem) :
    decode (mn ++ chSpace :: rem) =
      match mnemonicOf mn with
      | none => .skip
      | some m => Decoded.ofExcept (decodeOperands m (fields (clean rem))) := by
  unfold decode
  rw [if_neg h0, splitAtSpace_append mn rem hs]
  cases mn with
  | nil => exact absurd rfl hne
  | cons c cs => rfl

/-- The decoder on a recognised mnemonic. -/
theorem decode_mnemonic (m : Mnemonic) (rem : Text) (h0 : chNul ∉ rem) :
    decode (mnemonicText m ++ chSpace :: rem) =
      Decoded.ofExcept (decodeOperands m (fields (clean rem))) := by
  rw [decode_split _ _ (mnemonicText_ne_nil m) (chSpace_notMem_mnemonicText m), mnemonicOf_mnemonicText]
  have hn : chNul ≠ chSpace := by decide
  simp [chNul_notMem_mnemonicText, h0, hn]

/-- Everything that an instruction as the answer says about the text. -/
theorem decode_instr {t : Text} {i : Instr} (h : decode t = .instr i) :
    ∃ m rem, t = mnemonicText m ++ chSpace :: rem ∧ chNul ∉ t ∧
      decodeOperands m (fields (clean rem)) = .ok i := by
  unfold decode at h
  split at h
  · cases h
  · rename_i h0
    split at h
    · cases h
    · cases h
    · rename_i c cs rem hsp
      split at h
      · cases h
      · rename_i m hm
        have hmn := mnemonicOf_some hm
        refine ⟨m, rem, by rw [← hmn]; exact (splitAtSpace_some hsp).1, h0, ?_⟩
        cases hd : decodeOperands m (fields (clean rem)) with
        | error r => rw [hd] at h; cases h
        | ok j => rw [hd] at h; cases h; rfl

/-! ### Cleaning and fields -/

theorem clean_append (a b : Text) : clean (a ++ b) = clean a ++ clean b := by simp [clean]

/-- Characters that cleaning keeps as they are. -/
def plainChar (c : Char8) : Bool := decide (c ≠ chSpace ∧ c ≠ chComma ∧ c ≠ chOpen ∧ c ≠ chClose)

theorem clean_plain {a : Text} (h : ∀ c ∈ a, plainChar c = true) : clean a = a := by
  induction a with
  | nil => rfl
  | cons c cs ih =>
    have hc := h c (by simp)
    simp only [plainChar, decide_eq_true_eq] at hc
    have ih' := ih fun d hd => h d (by simp [hd])
    simp only [clean] at ih' ⊢
    rw [List.filter_cons_of_pos (by simpa using hc.1), List.map_cons, ih']
    simp [separatorToSpace, hc]

theorem fields_plain {a : Text} (h : ∀ c ∈ a, plainChar c = true) : fields a = [a] := by
  induction a with
  | nil => rfl
  | cons c cs ih =>
    have hc := h c (by simp)
    simp only [plainChar, decide_eq_true_eq] at hc
    simp [fields, hc.1, ih fun d hd => h d (by simp [hd])]

theorem fields_plain_space {a : Text} (b : Text) (h : ∀ c ∈ a, plainChar c = true) :
    fields (a ++ chSpace :: b) = a :: fields b := by
  induction a with
  | nil => simp [fields]
  | cons c cs ih =>
    have hc := h c (by simp)
    simp only [plainChar, decide_eq_true_eq] at hc
    simp [fields, hc.1, ih fun d hd => h d (by simp [hd])]

/-! ### Digits -/

theorem decimalDigit_digitChar {d : Nat} (h : d < 10) : decimalDigit (digitChar d) = some d := by
  interval_cases d <;> decide

theorem digitChar_plain {d : Nat} (h : d < 10) : plainChar (digitChar d) = true := by
  interval_cases d <;> decide

theorem digitsFrom_append (base : Nat) (digit : Char8 → Option Nat) (a b : Text) (acc : Nat) :
    digitsFrom base digit acc (a ++ b) = (digitsFrom base digit acc a).bind fun n => digitsFrom base digit n b := by
  induction a generalizing acc with
  | nil => rfl
  | cons c cs ih =>
    simp only [List.cons_append, digitsFrom]
    cases digit c with
    | none => rfl
    | some d => exact ih _

theorem digitsFrom_decimalFuel (fuel n : Nat) (h : n < 10 ^ (fuel + 1)) :
    digitsFrom 10 decimalDigit 0 (decimalFuel fuel n) = some n := by
  induction fuel generalizing n with
  | zero =>
    have hn : n < 10 := by simpa using h
    simp [decimalFuel, digitsFrom, Nat.mod_eq_of_lt hn, decimalDigit_digitChar hn]
  | succ f ih =>
    unfold decimalFuel
    split
    · rename_i hn
      simp [digitsFrom, decimalDigit_digitChar hn]
    · have hdiv : n / 10 < 10 ^ (f + 1) := by rw [pow_succ] at h; omega
      rw [digitsFrom_append, ih _ hdiv]
      simp only [Option.bind_some, digitsFrom, decimalDigit_digitChar (Nat.mod_lt n (by decide : 0 < 10))]
      congr 1; omega

theorem decimalFuel_plain (fuel n : Nat) : ∀ c ∈ decimalFuel fuel n, plainChar c = true := by
  induction fuel generalizing n with
  | zero => intro c hc; simp [decimalFuel] at hc; subst hc; exact digitChar_plain (Nat.mod_lt _ (by decide))
  | succ f ih =>
    intro c hc
    unfold decimalFuel at hc
    split at hc
    · rename_i hn; simp at hc; subst hc; exact digitChar_plain hn
    · simp only [List.mem_append, List.mem_singleton] at hc
      rcases hc with hc | rfl
      · exact ih _ c hc
      · exact digitChar_plain (Nat.mod_lt _ (by decide))

theorem decimalText_plain (n : Nat) : ∀ c ∈ decimalText n, plainChar c = true := decimalFuel_plain 9 n

theorem decimalText_ne_nil (n : Nat) : decimalText n ≠ [] := by
  unfold decimalText decimalFuel
  split <;> simp

theorem digitsValue_of_ne_nil (base : Nat) (digit : Char8 → Option Nat) {t : Text} (h : t ≠ []) :
    digitsValue base digit t = digitsFrom base digit 0 t := by
  cases t with
  | nil => exact absurd rfl h
  | cons c cs => rfl

theorem digitsValue_decimalText {n : Nat} (h : n < 10 ^ 10) :
    digitsValue 10 decimalDigit (decimalText n) = some n := by
  rw [digitsValue_of_ne_nil _ _ (decimalText_ne_nil n)]
  exact digitsFrom_decimalFuel 9 n h

/-- Every character of decimal digits is a digit. -/
theorem decimalText_digit (n : Nat) : ∀ c ∈ decimalText n, ∃ d < 10, c = digitChar d := by
  have h : ∀ fuel n, ∀ c ∈ decimalFuel fuel n, ∃ d < 10, c = digitChar d := by
    intro fuel
    induction fuel with
    | zero => intro n c hc; simp [decimalFuel] at hc; exact ⟨n % 10, Nat.mod_lt _ (by decide), hc⟩
    | succ f ih =>
      intro n c hc
      unfold decimalFuel at hc
      split at hc
      · rename_i hn; simp at hc; exact ⟨n, hn, hc⟩
      · simp only [List.mem_append, List.mem_singleton] at hc
        rcases hc with hc | rfl
        · exact ih _ c hc
        · exact ⟨n % 10, Nat.mod_lt _ (by decide), rfl⟩
  exact h 9 n

theorem digitChar_ne {d : Nat} (h : d < 10) :
    digitChar d ≠ chLowerX ∧ digitChar d ≠ chMinus ∧ digitChar d ≠ chNul := by
  interval_cases d <;> decide

/-! ### Tokens that the encoder writes -/

theorem reg_regText (r : RegIndex) : reg (regText r) = .ok r := by
  have h : r.val < 10 ^ 10 := by have := r.isLt; omega
  simp [reg, regText, digitsValue_decimalText h]

theorem regText_plain (r : RegIndex) : ∀ c ∈ regText r, plainChar c = true := by
  intro c hc
  simp only [regText, List.mem_cons] at hc
  rcases hc with rfl | hc
  · decide
  · exact decimalText_plain _ c hc

theorem magnitude_decimalText {n : Nat} (h : n < 10 ^ 10) : magnitude (decimalText n) = some n := by
  unfold magnitude
  split
  · rename_i z x ds ht
    have hx : x ≠ chLowerX := by
      obtain ⟨d, hd, rfl⟩ := decimalText_digit n x (by rw [ht]; simp)
      exact (digitChar_ne hd).1
    rw [if_neg fun hh => hx hh.2]
    exact digitsValue_decimalText h
  · exact digitsValue_decimalText h

theorem signedNumber_intText {v : Int} (h : v.natAbs < 10 ^ 10) : signedNumber (intText v) = some v := by
  unfold intText
  split
  · rename_i hv
    simp only [signedNumber, if_true, magnitude_decimalText h, Option.map_some]
    congr 1; omega
  · rename_i hv
    unfold signedNumber
    split
    · rename_i ht; exact absurd ht (decimalText_ne_nil _)
    · rename_i c cs ht
      have hc : c ≠ chMinus := by
        obtain ⟨d, hd, rfl⟩ := decimalText_digit v.natAbs c (by rw [ht]; simp)
        exact (digitChar_ne hd).2.1
      rw [if_neg hc, ← ht, magnitude_decimalText h, Option.map_some]
      congr 1; omega

theorem num_intText {v : Int} (h1 : -2147483648 ≤ v) (h2 : v ≤ 2147483647) : num (intText v) = .ok v := by
  have h : v.natAbs < 10 ^ 10 := by omega
  simp [num, signedNumber_intText h, h1, h2]

theorem intText_plain (v : Int) : ∀ c ∈ intText v, plainChar c = true := by
  intro c hc
  unfold intText at hc
  split at hc
  · simp only [List.mem_cons] at hc
    rcases hc with rfl | hc
    · decide
    · exact decimalText_plain _ c hc
  · exact decimalText_plain _ c hc

theorem regText_ne_nil (r : RegIndex) : regText r ≠ [] := by simp [regText]

theorem intText_ne_nil (v : Int) : intText v ≠ [] := by
  unfold intText
  split
  · simp
  · exact decimalText_ne_nil _

theorem chNul_notMem_decimalText (n : Nat) : chNul ∉ decimalText n := by
  intro h
  obtain ⟨d, hd, e⟩ := decimalText_digit n _ h
  exact (digitChar_ne hd).2.2 e.symm

theorem chNul_notMem_regText (r : RegIndex) : chNul ∉ regText r := by
  have h : chNul ≠ chLowerX := by decide
  simp [regText, h, chNul_notMem_decimalText]

theorem chNul_notMem_intText (v : Int) : chNul ∉ intText v := by
  have h : chNul ≠ chMinus := by decide
  unfold intText
  split <;> simp [h, chNul_notMem_decimalText]

theorem chNul_notMem_operandText (i : Instr) : chNul ∉ operandText i := by
  have h : chNul ∉ commaSpace ∧ chNul ≠ chOpen ∧ chNul ≠ chClose := by decide
  cases i <;>
    simp [operandText, registerRegisterOperands, registerImmediateOperands, memoryOperands,
      upperImmediateOperands, h, chNul_notMem_regText, chNul_notMem_intText]

/-! ### The fields of what the encoder writes -/

theorem clean_commaSpace : clean commaSpace = [chSpace] := by decide

theorem clean_plain_append {a : Text} (b : Text) (h : ∀ c ∈ a, plainChar c = true) :
    clean (a ++ b) = a ++ clean b := by
  rw [clean_append, clean_plain h]

theorem clean_comma_append (b : Text) : clean (commaSpace ++ b) = chSpace :: clean b := by
  rw [clean_append, clean_commaSpace]; rfl

theorem clean_open (b : Text) : clean (chOpen :: b) = chSpace :: clean b := by
  have : clean [chOpen] = [chSpace] := by decide
  rw [show chOpen :: b = [chOpen] ++ b from rfl, clean_append, this]; rfl

/-- The fields of `a, b, c` for tokens without spaces and separators. -/
theorem fields_comma_list {a b c : Text} (ha : ∀ x ∈ a, plainChar x = true) (hb : ∀ x ∈ b, plainChar x = true)
    (hc : ∀ x ∈ c, plainChar x = true) :
    fields (clean (a ++ (commaSpace ++ (b ++ (commaSpace ++ c))))) = [a, b, c] := by
  rw [clean_plain_append _ ha, clean_comma_append, clean_plain_append _ hb, clean_comma_append, clean_plain hc,
    fields_plain_space _ ha, fields_plain_space _ hb, fields_plain hc]

/-- The fields of `a, b(c)`: the closing `)` adds an empty field (30_encoding.md R77). -/
theorem fields_base_offset {a b c : Text} (ha : ∀ x ∈ a, plainChar x = true) (hb : ∀ x ∈ b, plainChar x = true)
    (hc : ∀ x ∈ c, plainChar x = true) :
    fields (clean (a ++ (commaSpace ++ (b ++ (chOpen :: (c ++ [chClose])))))) = [a, b, c, []] := by
  have hclose : clean [chClose] = [chSpace] := by decide
  rw [clean_plain_append _ ha, clean_comma_append, clean_plain_append _ hb, clean_open, clean_plain_append _ hc, hclose,
    fields_plain_space _ ha, fields_plain_space _ hb, fields_plain_space _ hc]
  rfl

/-- The fields of `a, b`. -/
theorem fields_pair {a b : Text} (ha : ∀ x ∈ a, plainChar x = true) (hb : ∀ x ∈ b, plainChar x = true) :
    fields (clean (a ++ (commaSpace ++ b))) = [a, b] := by
  rw [clean_plain_append _ ha, clean_comma_append, clean_plain hb, fields_plain_space _ ha, fields_plain hb]

/-! ### Immediates -/

/-- The bits of a small non-negative word above bit `n` are 0. -/
theorem getLsbD_of_toNat_lt {w : Word} {n k : Nat} (h : w.toNat < 2 ^ n) (hk : n ≤ k) : w.getLsbD k = false :=
  Nat.testBit_lt_two_pow (lt_of_lt_of_le h (Nat.pow_le_pow_right (by decide) hk))

/-- A word that is a sign-extended 12-bit value already is not changed by the extension. -/
theorem signExtend12_of_fits {w : Word} (h : fitsImm12 w = true) : signExtend12 w = w := by
  simp only [fitsImm12, Bool.and_eq_true, decide_eq_true_eq] at h
  have hcond := BitVec.toInt_eq_toNat_cond w
  have hlt := w.isLt
  unfold signExtend12
  split
  · rename_i hb
    have hbig : ¬ w.toNat < 2 ^ 11 := fun hs => by
      rw [getLsbD_of_toNat_lt hs (le_refl 11)] at hb; cases hb
    have hnot : (~~~w).toNat < 2 ^ 11 := by
      rw [BitVec.toNat_not]; split at hcond <;> omega
    apply BitVec.eq_of_getLsbD_eq
    intro k hk
    by_cases h12 : 12 ≤ k
    · have hw : w.getLsbD k = true := by
        have := getLsbD_of_toNat_lt hnot (show 11 ≤ k by omega)
        rw [BitVec.getLsbD_not] at this
        simpa [hk] using this
      simp [BitVec.getLsbD_or, hw]
    · have hm : (0xFFFFF000#32).getLsbD k = false := by
        have : k < 12 := by omega
        interval_cases k <;> decide
      simp [BitVec.getLsbD_or, hm]
  · rfl

theorem imm12_toInt {imm : Word} (h : fitsImm12 imm = true) : imm12 imm.toInt = .ok imm := by
  have h' := h
  simp only [fitsImm12, Bool.and_eq_true, decide_eq_true_eq] at h'
  rw [imm12, if_pos ⟨h'.1, by omega⟩, wrap32, BitVec.ofInt_toInt, signExtend12_of_fits h]

theorem imm20_toInt {imm : Word} (h : fitsImm20 imm = true) : imm20 imm.toInt = .ok imm := by
  simp only [fitsImm20, decide_eq_true_eq] at h
  have hcond := BitVec.toInt_eq_toNat_cond imm
  rw [imm20, if_pos (by split at hcond <;> omega), wrap32, BitVec.ofInt_toInt]

theorem off32_toInt (w : Word) : off32 w.toInt = .ok w := by
  rw [off32, wrap32, BitVec.ofInt_toInt]

theorem num_wordText (w : Word) : num (intText w.toInt) = .ok w.toInt := by
  have hcond := BitVec.toInt_eq_toNat_cond w
  have hlt := w.isLt
  exact num_intText (by split at hcond <;> omega) (by split at hcond <;> omega)

/-! ### The formats: one lemma each, of three (or two) good tokens -/

theorem slots3_three {a b c : Text} (ha : a ≠ []) (hb : b ≠ []) (hc : c ≠ []) :
    slots3 [a, b, c] = .ok (a, b, c) := by
  simp [slots3, ha, hb, hc]

theorem slots3_trailing {a b c : Text} (ha : a ≠ []) (hb : b ≠ []) (hc : c ≠ []) :
    slots3 [a, b, c, []] = .ok (a, b, c) := by
  simp [slots3, ha, hb, hc]

theorem slots2_two {a b : Text} (ha : a ≠ []) (hb : b ≠ []) : slots2 [a, b] = .ok (a, b) := by
  simp [slots2, ha, hb]

/-- The Register-Register format reads back what the encoder writes. -/
theorem registerRegisterFormat_operands (mk : RegIndex → RegIndex → RegIndex → Instr) (rd rs1 rs2 : RegIndex) :
    registerRegisterFormat mk (fields (clean (registerRegisterOperands rd rs1 rs2))) = .ok (mk rd rs1 rs2) := by
  rw [registerRegisterOperands, fields_comma_list (regText_plain _) (regText_plain _) (regText_plain _),
    registerRegisterFormat, slots3_three (regText_ne_nil _) (regText_ne_nil _) (regText_ne_nil _)]
  simp [Except.bind, reg_regText]

/-- The Register-Immediate format on any number that the encoder can write. -/
theorem registerImmediateFormat_intText (mk : RegIndex → RegIndex → Word → Instr) (rd rs1 : RegIndex) {v : Int}
    (h1 : -2147483648 ≤ v) (h2 : v ≤ 2147483647) :
    registerImmediateFormat mk (fields (clean (regText rd ++ (commaSpace ++ (regText rs1 ++ (commaSpace ++ intText v)))))) =
      (imm12 v).map (mk rd rs1) := by
  rw [fields_comma_list (regText_plain _) (regText_plain _) (intText_plain _), registerImmediateFormat,
    slots3_three (regText_ne_nil _) (regText_ne_nil _) (intText_ne_nil _)]
  simp only [Except.bind, reg_regText, num_intText h1 h2]
  cases imm12 v <;> rfl

/-- The Memory format reads back what the encoder writes. -/
theorem memoryFormat_operands (mk : RegIndex → Word → RegIndex → Instr) (rd : RegIndex) (offset : Word)
    (rs1 : RegIndex) : memoryFormat mk (fields (clean (memoryOperands rd offset rs1))) = .ok (mk rd offset rs1) := by
  rw [memoryOperands, fields_base_offset (regText_plain _) (intText_plain _) (regText_plain _), memoryFormat,
    slots3_trailing (regText_ne_nil _) (intText_ne_nil _) (regText_ne_nil _)]
  simp [Except.bind, reg_regText, num_wordText, off32_toInt]

/-- The Upper-Immediate format on any number that the encoder can write. -/
theorem upperImmediateFormat_intText (mk : RegIndex → Word → Instr) (rd : RegIndex) {v : Int}
    (h1 : -2147483648 ≤ v) (h2 : v ≤ 2147483647) :
    upperImmediateFormat mk (fields (clean (regText rd ++ (commaSpace ++ intText v)))) = (imm20 v).map (mk rd) := by
  rw [fields_pair (regText_plain _) (intText_plain _), upperImmediateFormat,
    slots2_two (regText_ne_nil _) (intText_ne_nil _)]
  simp only [Except.bind, reg_regText, num_intText h1 h2]
  cases imm20 v <;> rfl

/-! ### From operands to a text -/

/-- A text of a mnemonic, `SP` and operands that decode is the instruction they give. -/
theorem decode_of_operands {m : Mnemonic} {rem : Text} {i : Instr} (h0 : chNul ∉ rem)
    (h : decodeOperands m (fields (clean rem)) = .ok i) : decode (mnemonicText m ++ [chSpace] ++ rem) = .instr i := by
  rw [List.append_assoc]
  exact (decode_mnemonic m rem h0).trans (by rw [h]; rfl)

/-- A bind of checks succeeds where both do. -/
theorem exceptBind_ok {α β : Type} {x : Except DecodeRefusal α} {f : α → Except DecodeRefusal β} {b : β}
    (h : x.bind f = .ok b) : ∃ a, x = .ok a ∧ f a = .ok b := by
  cases x with
  | error e => cases h
  | ok a => exact ⟨a, rfl, h⟩

/-- Digits read one by one are the number they spell, most significant first. -/
theorem digitsFrom_map {α : Type} (base : Nat) (digit : Char8 → Option Nat) (f : α → Char8) (val : α → Nat)
    (h : ∀ a, digit (f a) = some (val a)) (ds : List α) (acc : Nat) :
    digitsFrom base digit acc (ds.map f) =
      some (acc * base ^ ds.length + Nat.ofDigits base (ds.reverse.map val)) := by
  induction ds generalizing acc with
  | nil => simp [digitsFrom]
  | cons d ds ih =>
    simp only [List.map_cons, digitsFrom, h, ih]
    simp only [List.reverse_cons, List.map_append, List.length_cons, Nat.ofDigits_append, List.map_cons,
      List.map_nil, Nat.ofDigits_singleton, List.length_map, List.length_reverse]
    congr 1; ring

end Sys2Proof
end

