-- ==== Sys2Proof/Laws/Memory.lean ====
section
/-! SUPPORT. What `put` and `get` do, for every memory, and that every memory operation keeps the canonical form. -/
namespace Sys2Proof.Machine

/-! ### Cells -/

theorem cellsRead_insert_of_absent (a b : Nat) (v : Byte) :
    ∀ cs : List Host.Cell, (∀ c ∈ cs, c.1 ≠ a) →
      cellsRead (cellsInsert cs a v) b = if b = a then v else cellsRead cs b
  | [], _ => by
    by_cases h : b = a
    · simp [cellsInsert, cellsRead, h]
    · simp [cellsInsert, cellsRead, h, Ne.symm h]
  | c :: cs, hc => by
    have hca : c.1 ≠ a := hc c (by simp)
    have ih := cellsRead_insert_of_absent a b v cs fun d hd => hc d (by simp [hd])
    unfold cellsInsert
    split
    · by_cases h : b = a
      · simp [cellsRead, h]
      · simp [cellsRead, h, Ne.symm h]
    · by_cases h : c.1 = b
      · subst h; simp [cellsRead, hca]
      · simp only [cellsRead, h, if_false, ih]

theorem cellsRead_erase (a b : Nat) :
    ∀ cs : List Host.Cell,
      cellsRead (cellsErase cs a) b = if b = a then Config.unlistedByte else cellsRead cs b
  | [] => by simp [cellsErase, cellsRead]
  | c :: cs => by
    have ih := cellsRead_erase a b cs
    unfold cellsErase at ih ⊢
    by_cases hc : c.1 = a
    · by_cases hb : b = a
      · simpa [hc, cellsRead, hb] using ih
      · have hab : ¬ a = b := Ne.symm hb
        simpa [hc, cellsRead, hb, hab] using ih
    · by_cases hb : c.1 = b
      · have hba : b ≠ a := fun e => hc (hb.trans e)
        simp [cellsRead, hb, hba]
      · simpa [hc, cellsRead, hb] using ih

theorem mem_cellsErase {cs : List Host.Cell} {a : Nat} {c : Host.Cell} :
    c ∈ cellsErase cs a ↔ c ∈ cs ∧ c.1 ≠ a := by
  simp [cellsErase]

/-- Read after write, for every list of cells. -/
theorem cellsRead_write (cs : List Host.Cell) (a b : Nat) (v : Byte) :
    cellsRead (cellsWrite cs a v) b = if b = a then v else cellsRead cs b := by
  unfold cellsWrite
  split
  · rename_i h; rw [cellsRead_erase, h]
  · rw [cellsRead_insert_of_absent a b v _ fun c hc => (mem_cellsErase.mp hc).2, cellsRead_erase]
    by_cases h : b = a <;> simp [h]

theorem mem_cellsInsert {a : Nat} {v : Byte} {c : Host.Cell} :
    ∀ {cs : List Host.Cell}, c ∈ cellsInsert cs a v ↔ c = (a, v) ∨ c ∈ cs
  | [] => by simp [cellsInsert]
  | d :: ds => by
    unfold cellsInsert
    split
    · simp
    · simp only [List.mem_cons, mem_cellsInsert (cs := ds)]; tauto

theorem cellsInsert_pairwise {a : Nat} {v : Byte} :
    ∀ {cs : List Host.Cell}, cs.Pairwise (fun c d => c.1 < d.1) → (∀ c ∈ cs, c.1 ≠ a) →
      (cellsInsert cs a v).Pairwise fun c d => c.1 < d.1
  | [], _, _ => by simp [cellsInsert]
  | c :: cs, h, hne => by
    obtain ⟨h1, h2⟩ := List.pairwise_cons.mp h
    unfold cellsInsert
    split
    · rename_i hlt
      refine List.pairwise_cons.mpr ⟨?_, h⟩
      intro d hd
      obtain rfl | hd := List.mem_cons.mp hd
      · exact hlt
      · exact hlt.trans (h1 d hd)
    · rename_i hlt
      have hca : c.1 ≠ a := hne c (by simp)
      refine List.pairwise_cons.mpr
        ⟨?_, cellsInsert_pairwise h2 fun d hd => hne d (List.mem_cons_of_mem _ hd)⟩
      intro d hd
      obtain rfl | hd := mem_cellsInsert.mp hd
      · show c.1 < a; omega
      · exact h1 d hd

theorem cellsErase_pairwise {a : Nat} {cs : List Host.Cell} (h : cs.Pairwise fun c d => c.1 < d.1) :
    (cellsErase cs a).Pairwise fun c d => c.1 < d.1 := h.filter _

/-- Writing one byte keeps the cells in canonical form. -/
theorem cellsWrite_canonical {cs : List Host.Cell} (a : Nat) (v : Byte)
    (h : cs.Pairwise fun c d => c.1 < d.1) (hz : ∀ c ∈ cs, c.2 ≠ Config.unlistedByte) :
    (cellsWrite cs a v).Pairwise (fun c d => c.1 < d.1) ∧
      ∀ c ∈ cellsWrite cs a v, c.2 ≠ Config.unlistedByte := by
  unfold cellsWrite
  split
  · exact ⟨cellsErase_pairwise h, fun c hc => hz c (mem_cellsErase.mp hc).1⟩
  · rename_i hv
    refine ⟨cellsInsert_pairwise (cellsErase_pairwise h) fun c hc => (mem_cellsErase.mp hc).2, ?_⟩
    intro c hc
    obtain rfl | hc := mem_cellsInsert.mp hc
    · exact hv
    · exact hz c (mem_cellsErase.mp hc).1

theorem cellsWrite_subset {cs : List Host.Cell} {a : Nat} {v : Byte} {c : Host.Cell}
    (hc : c ∈ cellsWrite cs a v) : c.1 = a ∨ c ∈ cs := by
  unfold cellsWrite at hc
  split at hc
  · exact .inr (mem_cellsErase.mp hc).1
  · obtain rfl | hc := mem_cellsInsert.mp hc
    · exact .inl rfl
    · exact .inr (mem_cellsErase.mp hc).1

/-! ### Keys -/

theorem mem_keysInsert {a k : Nat} : ∀ {ks : List Nat}, k ∈ keysInsert ks a ↔ k = a ∨ k ∈ ks
  | [] => by simp [keysInsert]
  | d :: ds => by
    unfold keysInsert
    split
    · simp
    · simp only [List.mem_cons, mem_keysInsert (ks := ds)]; tauto

theorem keysInsert_length (a : Nat) : ∀ ks : List Nat, (keysInsert ks a).length = ks.length + 1
  | [] => rfl
  | k :: ks => by
    unfold keysInsert
    split
    · rfl
    · simp [keysInsert_length a ks]

theorem keysInsert_pairwise {a : Nat} :
    ∀ {ks : List Nat}, ks.Pairwise (· < ·) → a ∉ ks → (keysInsert ks a).Pairwise (· < ·)
  | [], _, _ => by simp [keysInsert]
  | k :: ks, h, hne => by
    obtain ⟨h1, h2⟩ := List.pairwise_cons.mp h
    simp only [List.mem_cons, not_or] at hne
    unfold keysInsert
    split
    · rename_i hlt
      refine List.pairwise_cons.mpr ⟨?_, h⟩
      intro d hd
      obtain rfl | hd := List.mem_cons.mp hd
      · exact hlt
      · exact hlt.trans (h1 d hd)
    · refine List.pairwise_cons.mpr ⟨?_, keysInsert_pairwise h2 hne.2⟩
      intro d hd
      obtain rfl | hd := mem_keysInsert.mp hd
      · omega
      · exact h1 d hd

/-! ### `put` -/

theorem Memory.present_put (m : Memory) (k q : Word) (v : Byte) :
    (m.put k v).present q = (decide (q = k) || m.present q) := by
  unfold Memory.put
  split
  · rename_i h
    by_cases hq : q = k
    · subst hq; simpa [Memory.present] using h
    · simp [Memory.present, hq]
  · by_cases hq : q = k
    · subst hq; simp [Memory.present, mem_keysInsert]
    · have : q.toNat ≠ k.toNat := fun e => hq (BitVec.eq_of_toNat_eq e)
      simp [Memory.present, mem_keysInsert, hq, this]

theorem Memory.put_cells (m : Memory) (k : Word) (v : Byte) :
    (m.put k v).cells = cellsWrite m.cells k.toNat v := by
  unfold Memory.put; split <;> rfl

/-- Everything a `put` does to the map `M`. -/
theorem Memory.lookup_put (m : Memory) (k q : Word) (v : Byte) :
    (m.put k v).lookup q = if q = k then some v else m.lookup q := by
  unfold Memory.lookup
  rw [Memory.present_put, Memory.put_cells, cellsRead_write]
  by_cases hq : q = k
  · simp [hq]
  · have : q.toNat ≠ k.toNat := fun e => hq (BitVec.eq_of_toNat_eq e)
    simp [hq, this]

theorem Memory.get_put (m : Memory) (k q : Word) (v : Byte) :
    (m.put k v).get q = if q = k then v else m.get q := by
  unfold Memory.get
  rw [Memory.lookup_put]
  split <;> rfl

/-- Everything a `put` does to the counter. -/
theorem Memory.size_put (m : Memory) (k : Word) (v : Byte) :
    (m.put k v).size = if m.present k then m.size else m.size + 1 := by
  unfold Memory.put; split <;> rfl

theorem Memory.empty_wf : Memory.empty.wf := by decide

theorem Memory.put_wf {m : Memory} (h : m.wf) (k : Word) (v : Byte) : (m.put k v).wf := by
  obtain ⟨h1, h2, h3, h4, h5, h6⟩ := h
  have hc := cellsWrite_canonical k.toNat v h1 h2
  unfold Memory.put
  by_cases hp : m.present k
  · rw [if_pos hp]
    refine ⟨hc.1, hc.2, h3, ?_, h5, h6⟩
    intro c hcm
    obtain hck | hcm := cellsWrite_subset hcm
    · rw [hck]; simpa [Memory.present] using hp
    · exact h4 c hcm
  · rw [if_neg hp]
    have hk : k.toNat ∉ m.keys := by simpa [Memory.present] using hp
    refine ⟨hc.1, hc.2, keysInsert_pairwise h3 hk, ?_, ?_, ?_⟩
    · intro c hcm
      obtain hck | hcm := cellsWrite_subset hcm
      · exact mem_keysInsert.mpr (.inl hck)
      · exact mem_keysInsert.mpr (.inr (h4 c hcm))
    · intro q hq
      obtain rfl | hq := mem_keysInsert.mp hq
      · exact k.isLt
      · exact h5 q hq
    · simp only [keysInsert_length, h6]

/-! ### Words and bytes -/

theorem Memory.writeByte_wf {m : Memory} (h : m.wf) (ea v : Word) : (m.writeByte ea v).wf :=
  Memory.put_wf h _ _

theorem Memory.writeWord_wf {m : Memory} (h : m.wf) (ea v : Word) : (m.writeWord ea v).wf :=
  Memory.put_wf (Memory.put_wf (Memory.put_wf (Memory.put_wf h _ _) _ _) _ _) _ _

/-- The four byte addresses of a word are distinct (20_memory.md R42). -/
theorem byteAddress_inj (ea : Word) {i j : Nat} (hi : i < 4) (hj : j < 4) :
    byteAddress ea i = byteAddress ea j ↔ i = j := by
  constructor
  · intro h
    have h' := congrArg BitVec.toNat h
    simp only [byteAddress, BitVec.toNat_add, BitVec.toNat_ofNat] at h'
    omega
  · rintro rfl; rfl

/-- What a word store does to the byte at each address. -/
theorem Memory.lookup_writeWord (m : Memory) (ea v q : Word) :
    (m.writeWord ea v).lookup q =
      if q = byteAddress ea 3 then some (byteOf v 3)
      else if q = byteAddress ea 2 then some (byteOf v 2)
      else if q = byteAddress ea 1 then some (byteOf v 1)
      else if q = byteAddress ea 0 then some (byteOf v 0)
      else m.lookup q := by
  unfold Memory.writeWord
  simp only [Memory.lookup_put]

/-- What a byte store does to the byte at each address. -/
theorem Memory.lookup_writeByte (m : Memory) (ea v q : Word) :
    (m.writeByte ea v).lookup q = if q = ea then some (byteOf v 0) else m.lookup q :=
  Memory.lookup_put m ea q _

end Sys2Proof.Machine
end

