-- ==== Sys2Proof/Laws/State.lean ====
section
/-! SUPPORT. One lemma per field per update of `State`, and the register bank's read after write. -/
namespace Sys2Proof.Machine

/-! ### Registers -/

theorem State.readReg_writeReg (s : State) (r q : RegIndex) (v : Word) :
    (s.writeReg r v).readReg q = if q = r then v else s.readReg q := by
  unfold State.writeReg State.readReg
  by_cases h : q = r
  · subst h; simp [Vector.get_eq_getElem]
  · have hne : r.val ≠ q.val := fun e => h (Fin.ext e.symm)
    simp [Vector.get_eq_getElem, hne, h]

@[simp] theorem State.readReg_writeReg_self (s : State) (r : RegIndex) (v : Word) :
    (s.writeReg r v).readReg r = v := by
  simp [State.readReg_writeReg]

theorem State.readReg_writeReg_other (s : State) {r q : RegIndex} (v : Word) (h : q ≠ r) :
    (s.writeReg r v).readReg q = s.readReg q := by
  simp [State.readReg_writeReg, h]

@[simp] theorem State.writeReg_memory (s : State) (r : RegIndex) (v : Word) :
    (s.writeReg r v).memory = s.memory := rfl

@[simp] theorem State.writeReg_program (s : State) (r : RegIndex) (v : Word) :
    (s.writeReg r v).program = s.program := rfl

@[simp] theorem State.writeReg_seq (s : State) (r : RegIndex) (v : Word) : (s.writeReg r v).seq = s.seq := rfl

/-! ### Memory replaced -/

@[simp] theorem State.withMemory_readReg (s : State) (m : Memory) (r : RegIndex) :
    State.readReg { s with memory := m } r = s.readReg r := rfl

@[simp] theorem State.withMemory_writeReg (s : State) (m : Memory) (r : RegIndex) (v : Word) :
    State.writeReg { s with memory := m } r v = { s.writeReg r v with memory := m } := rfl

/-! ### The host's place -/

@[simp] theorem State.withPlace_readReg (s : State) (p : List Text) (n : Nat) (r : RegIndex) :
    State.readReg { s with program := p, seq := n } r = s.readReg r := rfl

@[simp] theorem State.withPlace_writeReg (s : State) (p : List Text) (n : Nat) (r : RegIndex) (v : Word) :
    State.writeReg { s with program := p, seq := n } r v = { s.writeReg r v with program := p, seq := n } := rfl

@[simp] theorem advance_readReg (s : State) (r : RegIndex) : (advance s).readReg r = s.readReg r := rfl
@[simp] theorem advance_regs (s : State) : (advance s).regs = s.regs := rfl
@[simp] theorem advance_memory (s : State) : (advance s).memory = s.memory := rfl
@[simp] theorem advance_program (s : State) : (advance s).program = s.program := rfl
@[simp] theorem advance_seq (s : State) : (advance s).seq = s.seq + 1 := rfl

/-! ### Reset -/

@[simp] theorem State.reset_readReg (r : RegIndex) : State.reset.readReg r = 0#32 := by
  simp [State.reset, State.readReg, Vector.get_eq_getElem]

@[simp] theorem State.reset_memory : State.reset.memory = Memory.empty := rfl
@[simp] theorem State.reset_program : State.reset.program = [] := rfl
@[simp] theorem State.reset_seq : State.reset.seq = 0 := rfl

/-- Two states are equal when their registers, memory, program and index are. -/
theorem State.ext_readReg {s t : State} (hr : ∀ r, s.readReg r = t.readReg r) (hm : s.memory = t.memory)
    (hp : s.program = t.program) (hq : s.seq = t.seq) : s = t := by
  obtain ⟨sr, sm, sp, sq⟩ := s
  obtain ⟨tr, tm, tp, tq⟩ := t
  simp only at hm hp hq
  subst hm hp hq
  congr 1
  refine Vector.ext fun i hi => ?_
  simpa [State.readReg, Vector.get_eq_getElem] using hr ⟨i, hi⟩

end Sys2Proof.Machine
end

