-- ==== Sys2Proof/Laws/Exec.lean ====
section
/-! SUPPORT. What the execution engine and a step can do, said once; provers cite these instead of unfolding the
meanings. -/
namespace Sys2Proof.Machine

/-- Writing one register is a `WritesOnly`. -/
theorem State.writesOnly_writeReg (s : State) (rd : RegIndex) (v : Word) : s.WritesOnly (s.writeReg rd v) rd v :=
  ⟨s.readReg_writeReg_self rd v, fun _ h => s.readReg_writeReg_other v h, fun _ => rfl, rfl, rfl, rfl⟩

/-- A `WritesOnly` is the write of one register. -/
theorem State.WritesOnly.eq_writeReg {s t : State} {rd : RegIndex} {v : Word} (h : s.WritesOnly t rd v) :
    t = s.writeReg rd v := by
  obtain ⟨h1, h2, -, h4, h5, h6⟩ := h
  refine State.ext_readReg (fun r => ?_) h4 h5 h6
  rw [State.readReg_writeReg]
  split
  · rename_i e; rw [e, h1]
  · rename_i e; exact h2 r e

/-- The only three things an instruction can do: write the register of its write select, or store a word, or store a
byte. -/
theorem exec_cases (i : Instr) (s : State) :
    (∃ rd v, (ports i).write = some rd ∧ exec i s = .next (s.writeReg rd v)) ∨
      (∃ rd offset rs1, i = .sw rd offset rs1 ∧ (ports i).write = none ∧
        exec i s = .next { s with memory := s.memory.writeWord (effectiveAddress s rs1 offset) (s.readReg rd) }) ∨
      (∃ rd offset rs1, i = .sb rd offset rs1 ∧ (ports i).write = none ∧
        exec i s = .next { s with memory := s.memory.writeByte (effectiveAddress s rs1 offset) (s.readReg rd) }) := by
  cases i with
  | add rd rs1 rs2 => exact .inl ⟨rd, alu .add (s.readReg rs1) (s.readReg rs2), rfl, rfl⟩
  | sub rd rs1 rs2 => exact .inl ⟨rd, alu .sub (s.readReg rs1) (s.readReg rs2), rfl, rfl⟩
  | and rd rs1 rs2 => exact .inl ⟨rd, alu .and (s.readReg rs1) (s.readReg rs2), rfl, rfl⟩
  | or rd rs1 rs2 => exact .inl ⟨rd, alu .or (s.readReg rs1) (s.readReg rs2), rfl, rfl⟩
  | xor rd rs1 rs2 => exact .inl ⟨rd, alu .xor (s.readReg rs1) (s.readReg rs2), rfl, rfl⟩
  | slt rd rs1 rs2 => exact .inl ⟨rd, alu .slt (s.readReg rs1) (s.readReg rs2), rfl, rfl⟩
  | sll rd rs1 rs2 => exact .inl ⟨rd, alu .sll (s.readReg rs1) (s.readReg rs2), rfl, rfl⟩
  | sra rd rs1 rs2 => exact .inl ⟨rd, alu .sra (s.readReg rs1) (s.readReg rs2), rfl, rfl⟩
  | addi rd rs1 imm => exact .inl ⟨rd, alu .add (s.readReg rs1) imm, rfl, rfl⟩
  | andi rd rs1 imm => exact .inl ⟨rd, alu .and (s.readReg rs1) imm, rfl, rfl⟩
  | ori rd rs1 imm => exact .inl ⟨rd, alu .or (s.readReg rs1) imm, rfl, rfl⟩
  | xori rd rs1 imm => exact .inl ⟨rd, alu .xor (s.readReg rs1) imm, rfl, rfl⟩
  | slti rd rs1 imm => exact .inl ⟨rd, alu .slt (s.readReg rs1) imm, rfl, rfl⟩
  | lw rd offset rs1 => exact .inl ⟨rd, s.memory.readWord (effectiveAddress s rs1 offset), rfl, rfl⟩
  | lb rd offset rs1 =>
    exact .inl ⟨rd, signExtendByte (s.memory.readByte (effectiveAddress s rs1 offset)), rfl, rfl⟩
  | sw rd offset rs1 => exact .inr (.inl ⟨rd, offset, rs1, rfl, rfl, rfl⟩)
  | sb rd offset rs1 => exact .inr (.inr ⟨rd, offset, rs1, rfl, rfl, rfl⟩)
  | lui rd imm => exact .inl ⟨rd, imm <<< 12, rfl, rfl⟩

/-- What one step does, in the three cases that give a next state. -/
theorem step_cases {s t : State} (h : step s = .next t) :
    (nextText s = none ∧ t = s) ∨
      (∃ text, nextText s = some text ∧ decode text = .skip ∧ t = advance s) ∨
      (∃ text i, nextText s = some text ∧ decode text = .instr i ∧ exec i (advance s) = .next t) := by
  unfold step at h
  cases hn : nextText s with
  | none => rw [hn] at h; exact .inl ⟨rfl, by cases h; rfl⟩
  | some text =>
    rw [hn] at h
    simp only [execute] at h
    cases hd : decode text with
    | skip => rw [hd] at h; exact .inr (.inl ⟨text, rfl, hd, by cases h; rfl⟩)
    | refuse r => rw [hd] at h; cases h
    | instr i => rw [hd] at h; exact .inr (.inr ⟨text, i, rfl, hd, h⟩)

/-- What an instruction does to memory: the `put`s of the bytes it stores, in order. -/
theorem exec_memory {i : Instr} {s t : State} (h : exec i s = .next t) :
    t.memory = (storesOf i s).foldl (fun m p => m.put p.1 p.2) s.memory := by
  cases i <;> cases h <;> rfl

end Sys2Proof.Machine
end

