-- ==== Sys2Proof/Laws/PerInstr.lean ====
section
/-! SUPPORT. Statements about every instruction, one lemma per constructor. -/
namespace Sys2Proof.Laws

/-- The text that the encoder writes for the instruction starts with the pattern of its row in spec/opcode_table.json,
the mnemonic and one `SP`, and no earlier character is an `SP` (30_encoding.md R74). -/
def EncodedPattern.Statement (i : Instr) : Prop :=
  splitAtSpace (encode i) = some (mnemonicText i.mnemonic, operandText i) ∧ chNul ∉ encode i

theorem EncodedPattern.of_any (i : Instr) : EncodedPattern.Statement i :=
  ⟨splitAtSpace_append _ _ (chSpace_notMem_mnemonicText _), by
    have hn : chNul ≠ chSpace := by decide
    simp [encode, chNul_notMem_mnemonicText, chNul_notMem_operandText, hn]⟩

theorem EncodedPattern.add (rd rs1 rs2 : RegIndex) : EncodedPattern.Statement (.add rd rs1 rs2) := EncodedPattern.of_any _
theorem EncodedPattern.sub (rd rs1 rs2 : RegIndex) : EncodedPattern.Statement (.sub rd rs1 rs2) := EncodedPattern.of_any _
theorem EncodedPattern.and (rd rs1 rs2 : RegIndex) : EncodedPattern.Statement (.and rd rs1 rs2) := EncodedPattern.of_any _
theorem EncodedPattern.or (rd rs1 rs2 : RegIndex) : EncodedPattern.Statement (.or rd rs1 rs2) := EncodedPattern.of_any _
theorem EncodedPattern.xor (rd rs1 rs2 : RegIndex) : EncodedPattern.Statement (.xor rd rs1 rs2) := EncodedPattern.of_any _
theorem EncodedPattern.slt (rd rs1 rs2 : RegIndex) : EncodedPattern.Statement (.slt rd rs1 rs2) := EncodedPattern.of_any _
theorem EncodedPattern.sll (rd rs1 rs2 : RegIndex) : EncodedPattern.Statement (.sll rd rs1 rs2) := EncodedPattern.of_any _
theorem EncodedPattern.sra (rd rs1 rs2 : RegIndex) : EncodedPattern.Statement (.sra rd rs1 rs2) := EncodedPattern.of_any _
theorem EncodedPattern.addi (rd rs1 : RegIndex) (imm : Word) : EncodedPattern.Statement (.addi rd rs1 imm) := EncodedPattern.of_any _
theorem EncodedPattern.andi (rd rs1 : RegIndex) (imm : Word) : EncodedPattern.Statement (.andi rd rs1 imm) := EncodedPattern.of_any _
theorem EncodedPattern.ori (rd rs1 : RegIndex) (imm : Word) : EncodedPattern.Statement (.ori rd rs1 imm) := EncodedPattern.of_any _
theorem EncodedPattern.xori (rd rs1 : RegIndex) (imm : Word) : EncodedPattern.Statement (.xori rd rs1 imm) := EncodedPattern.of_any _
theorem EncodedPattern.slti (rd rs1 : RegIndex) (imm : Word) : EncodedPattern.Statement (.slti rd rs1 imm) := EncodedPattern.of_any _
theorem EncodedPattern.lw (rd : RegIndex) (offset : Word) (rs1 : RegIndex) : EncodedPattern.Statement (.lw rd offset rs1) := EncodedPattern.of_any _
theorem EncodedPattern.lb (rd : RegIndex) (offset : Word) (rs1 : RegIndex) : EncodedPattern.Statement (.lb rd offset rs1) := EncodedPattern.of_any _
theorem EncodedPattern.sw (rd : RegIndex) (offset : Word) (rs1 : RegIndex) : EncodedPattern.Statement (.sw rd offset rs1) := EncodedPattern.of_any _
theorem EncodedPattern.sb (rd : RegIndex) (offset : Word) (rs1 : RegIndex) : EncodedPattern.Statement (.sb rd offset rs1) := EncodedPattern.of_any _
theorem EncodedPattern.lui (rd : RegIndex) (imm : Word) : EncodedPattern.Statement (.lui rd imm) := EncodedPattern.of_any _

end Sys2Proof.Laws
end

