-- ==== Sys2Proof/Laws/Words.lean ====
section
/-! SUPPORT. The bit-vector operations of the meanings in the terms of the spec: exact integers, wrapped. -/
namespace Sys2Proof.Machine

/-- The low five bits are the remainder by 32 (40_register_register.md R120). -/
theorem shiftAmount_eq (b : Word) : shiftAmount b = b.toNat % 32 := by
  simp [shiftAmount, BitVec.extractLsb]

theorem boolWord_slt (a b : Word) : boolWord (a.slt b) = if a.toInt < b.toInt then 1#32 else 0#32 := by
  simp only [boolWord, BitVec.slt, decide_eq_true_eq]

theorem add_eq_wrap32 (a b : Word) : a + b = wrap32 (a.toInt + b.toInt) := by
  apply BitVec.eq_of_toInt_eq
  rw [wrap32, BitVec.toInt_ofInt, BitVec.toInt_add]

theorem sub_eq_wrap32 (a b : Word) : a - b = wrap32 (a.toInt - b.toInt) := by
  apply BitVec.eq_of_toInt_eq
  rw [wrap32, BitVec.toInt_ofInt, BitVec.toInt_sub]

theorem toInt_wrap32 {v : Int} (h1 : -2147483648 ≤ v) (h2 : v ≤ 2147483647) : (wrap32 v).toInt = v := by
  rw [wrap32, BitVec.toInt_ofInt]
  apply Int.bmod_eq_of_le <;> omega

/-- `ea = wrap32(s(x[rs1]) + s(offset))` (20_memory.md R41). -/
theorem effectiveAddress_eq_wrap32 (s : State) (rs1 : RegIndex) (offset : Word) :
    effectiveAddress s rs1 offset = wrap32 ((s.readReg rs1).toInt + offset.toInt) := add_eq_wrap32 _ _

/-- The OR of 0xFFFFFF00 is a sign extension (20_memory.md R55). -/
theorem signExtendByte_eq (b : Byte) : signExtendByte b = b.signExtend 32 := by
  revert b; decide +kernel

/-- What a word store leaves at each address (20_memory.md R54). -/
theorem Memory.get_writeWord (m : Memory) (ea v q : Word) :
    (m.writeWord ea v).get q =
      if q = byteAddress ea 3 then byteOf v 3
      else if q = byteAddress ea 2 then byteOf v 2
      else if q = byteAddress ea 1 then byteOf v 1
      else if q = byteAddress ea 0 then byteOf v 0
      else m.get q := by
  unfold Memory.get
  rw [Memory.lookup_writeWord]
  repeat' split
  all_goals rfl

/-- Which addresses a word store makes present (20_memory.md R43, R54). -/
theorem Memory.present_writeWord (m : Memory) (ea v q : Word) :
    (m.writeWord ea v).present q =
      (decide (q = byteAddress ea 3) || (decide (q = byteAddress ea 2) || (decide (q = byteAddress ea 1) ||
        (decide (q = byteAddress ea 0) || m.present q)))) := by
  unfold Memory.writeWord
  simp only [Memory.present_put]

theorem Memory.get_writeByte (m : Memory) (ea v q : Word) :
    (m.writeByte ea v).get q = if q = ea then byteOf v 0 else m.get q := Memory.get_put m ea q _

theorem Memory.present_writeByte (m : Memory) (ea v q : Word) :
    (m.writeByte ea v).present q = (decide (q = ea) || m.present q) := Memory.present_put m ea q _

/-- A `put` never makes a present key absent, and adds at most 1 to the counter. -/
theorem Memory.foldl_put_monotone (ps : List (Word × Byte)) (m : Memory) :
    (∀ a, m.present a = true → (ps.foldl (fun m p => m.put p.1 p.2) m).present a = true) ∧
      m.size ≤ (ps.foldl (fun m p => m.put p.1 p.2) m).size ∧
      (ps.foldl (fun m p => m.put p.1 p.2) m).size ≤ m.size + ps.length := by
  induction ps generalizing m with
  | nil => simp
  | cons p ps ih =>
    obtain ⟨h1, h2, h3⟩ := ih (m.put p.1 p.2)
    simp only [List.foldl_cons, List.length_cons]
    have := Memory.size_put m p.1 p.2
    refine ⟨fun a ha => h1 a (by rw [Memory.present_put]; simp [ha]), ?_, ?_⟩ <;> split at this <;> omega

/-- The text placed at a position is the one found there. -/
theorem placeText_getElem? : ∀ (l : List Text) (n : Nat) (t : Text), (placeText l n t)[n]? = some t
  | [], 0, _ => rfl
  | _ :: _, 0, _ => rfl
  | [], n + 1, t => by simpa [placeText] using placeText_getElem? [] n t
  | _ :: ts, n + 1, t => by simpa [placeText] using placeText_getElem? ts n t

/-- No instruction writes the host's list or index. -/
theorem exec_keeps_host {i : Instr} {s t : State} (h : exec i s = .next t) :
    t.program = s.program ∧ t.seq = s.seq := by
  obtain ⟨rd, v, -, e⟩ | ⟨rd, o, rs, -, -, e⟩ | ⟨rd, o, rs, -, -, e⟩ := exec_cases i s <;>
    (rw [e] at h; cases h; exact ⟨rfl, rfl⟩)

end Sys2Proof.Machine
end

