-- ==== Sys2Proof/Tests/Slice0.lean ====
section
/-! SUPPORT. Tests whose expected results are the vectors of 95_test_vectors.md and the rules of spec/, and a witness for
the hypotheses of every obligation that has any. -/
namespace Sys2Proof.Tests
open Sys2Proof Sys2Proof.Machine

/-- The reset state with some registers written. -/
def start (rs : List (RegIndex × Word)) : State := rs.foldl (fun s p => s.writeReg p.1 p.2) State.reset

/-- A register after an outcome. -/
def regAfter (o : Host.Outcome State Fault Refusal) (r : RegIndex) : Option Word :=
  match o with
  | .next t => some (t.readReg r)
  | .fault _ => none
  | .refused _ => none

/-- The cells at some addresses, and the counter, after an outcome. -/
def cellsAfter (o : Host.Outcome State Fault Refusal) (addresses : List Word) : Option (List Byte × Nat) :=
  match o with
  | .next t => some (addresses.map t.memory.get, t.memory.size)
  | .fault _ => none
  | .refused _ => none

/-- Two instructions, one after the other. -/
def thenExec (o : Host.Outcome State Fault Refusal) (i : Instr) : Host.Outcome State Fault Refusal :=
  match o with
  | .next t => exec i t
  | .fault f => .fault f
  | .refused r => .refused r

/-! ### WellFormed: an ill-formed term for each check (41_register_immediate.md R135; 30_encoding.md R86) -/

theorem test_wellFormed_addi :
    Instr.wellFormed (.addi 1 0 2048#32) = false ∧ Instr.wellFormed (.addi 1 0 0xFFFFF7FF#32) = false ∧
      Instr.wellFormed (.addi 1 0 2047#32) = true ∧ Instr.wellFormed (.addi 1 0 0xFFFFF800#32) = true := by decide

theorem test_wellFormed_andi :
    Instr.wellFormed (.andi 1 0 2048#32) = false ∧ Instr.wellFormed (.andi 1 0 0xFFFFF7FF#32) = false ∧
      Instr.wellFormed (.andi 1 0 2047#32) = true ∧ Instr.wellFormed (.andi 1 0 0xFFFFF800#32) = true := by decide

theorem test_wellFormed_ori :
    Instr.wellFormed (.ori 1 0 2048#32) = false ∧ Instr.wellFormed (.ori 1 0 0xFFFFF7FF#32) = false ∧
      Instr.wellFormed (.ori 1 0 2047#32) = true ∧ Instr.wellFormed (.ori 1 0 0xFFFFF800#32) = true := by decide

theorem test_wellFormed_xori :
    Instr.wellFormed (.xori 1 0 2048#32) = false ∧ Instr.wellFormed (.xori 1 0 0xFFFFF7FF#32) = false ∧
      Instr.wellFormed (.xori 1 0 2047#32) = true ∧ Instr.wellFormed (.xori 1 0 0xFFFFF800#32) = true := by decide

theorem test_wellFormed_slti :
    Instr.wellFormed (.slti 1 0 2048#32) = false ∧ Instr.wellFormed (.slti 1 0 0xFFFFF7FF#32) = false ∧
      Instr.wellFormed (.slti 1 0 2047#32) = true ∧ Instr.wellFormed (.slti 1 0 0xFFFFF800#32) = true := by decide

theorem test_wellFormed_lui :
    Instr.wellFormed (.lui 1 0x100000#32) = false ∧ Instr.wellFormed (.lui 1 0xFFFFFFFF#32) = false ∧
      Instr.wellFormed (.lui 1 0xFFFFF#32) = true := by decide

/-! ### Decoding: every constructor, from its characters (95_test_vectors.md sections 2 and 9, 30_encoding.md) -/

/-- `add x3, x1, x2`. -/
theorem test_decode_add : decode [0x61#8, 0x64#8, 0x64#8, 0x20#8, 0x78#8, 0x33#8, 0x2C#8, 0x20#8, 0x78#8, 0x31#8,
    0x2C#8, 0x20#8, 0x78#8, 0x32#8] = .instr (.add 3 1 2) := by decide

/-- `sub x4, x1, x2`. -/
theorem test_decode_sub : decode [0x73#8, 0x75#8, 0x62#8, 0x20#8, 0x78#8, 0x34#8, 0x2C#8, 0x20#8, 0x78#8, 0x31#8,
    0x2C#8, 0x20#8, 0x78#8, 0x32#8] = .instr (.sub 4 1 2) := by decide

/-- `and x10, x8, x7`. -/
theorem test_decode_and : decode [0x61#8, 0x6E#8, 0x64#8, 0x20#8, 0x78#8, 0x31#8, 0x30#8, 0x2C#8, 0x20#8, 0x78#8,
    0x38#8, 0x2C#8, 0x20#8, 0x78#8, 0x37#8] = .instr (.and 10 8 7) := by decide

/-- `or x11, x4, x5`. -/
theorem test_decode_or : decode [0x6F#8, 0x72#8, 0x20#8, 0x78#8, 0x31#8, 0x31#8, 0x2C#8, 0x20#8, 0x78#8, 0x34#8,
    0x2C#8, 0x20#8, 0x78#8, 0x35#8] = .instr (.or 11 4 5) := by decide

/-- `xor x7, x5, x3`. -/
theorem test_decode_xor : decode [0x78#8, 0x6F#8, 0x72#8, 0x20#8, 0x78#8, 0x37#8, 0x2C#8, 0x20#8, 0x78#8, 0x35#8,
    0x2C#8, 0x20#8, 0x78#8, 0x33#8] = .instr (.xor 7 5 3) := by decide

/-- `slt x6, x2, x1`. -/
theorem test_decode_slt : decode [0x73#8, 0x6C#8, 0x74#8, 0x20#8, 0x78#8, 0x36#8, 0x2C#8, 0x20#8, 0x78#8, 0x32#8,
    0x2C#8, 0x20#8, 0x78#8, 0x31#8] = .instr (.slt 6 2 1) := by decide

/-- `sll x5, x3, x2`. -/
theorem test_decode_sll : decode [0x73#8, 0x6C#8, 0x6C#8, 0x20#8, 0x78#8, 0x35#8, 0x2C#8, 0x20#8, 0x78#8, 0x33#8,
    0x2C#8, 0x20#8, 0x78#8, 0x32#8] = .instr (.sll 5 3 2) := by decide

/-- `sra x9, x8, x2`. -/
theorem test_decode_sra : decode [0x73#8, 0x72#8, 0x61#8, 0x20#8, 0x78#8, 0x39#8, 0x2C#8, 0x20#8, 0x78#8, 0x38#8,
    0x2C#8, 0x20#8, 0x78#8, 0x32#8] = .instr (.sra 9 8 2) := by decide

/-- `addi x1, x1, 0x678`. -/
theorem test_decode_addi : decode [0x61#8, 0x64#8, 0x64#8, 0x69#8, 0x20#8, 0x78#8, 0x31#8, 0x2C#8, 0x20#8, 0x78#8,
    0x31#8, 0x2C#8, 0x20#8, 0x30#8, 0x78#8, 0x36#8, 0x37#8, 0x38#8] = .instr (.addi 1 1 0x678#32) := by decide

/-- `andi x2, x1, 0x800`. -/
theorem test_decode_andi : decode [0x61#8, 0x6E#8, 0x64#8, 0x69#8, 0x20#8, 0x78#8, 0x32#8, 0x2C#8, 0x20#8, 0x78#8,
    0x31#8, 0x2C#8, 0x20#8, 0x30#8, 0x78#8, 0x38#8, 0x30#8, 0x30#8] = .instr (.andi 2 1 0xFFFFF800#32) := by decide

/-- `ori x2, x1, 4095`. -/
theorem test_decode_ori : decode [0x6F#8, 0x72#8, 0x69#8, 0x20#8, 0x78#8, 0x32#8, 0x2C#8, 0x20#8, 0x78#8, 0x31#8,
    0x2C#8, 0x20#8, 0x34#8, 0x30#8, 0x39#8, 0x35#8] = .instr (.ori 2 1 0xFFFFFFFF#32) := by decide

/-- `xori x31, x30, -1`. -/
theorem test_decode_xori : decode [0x78#8, 0x6F#8, 0x72#8, 0x69#8, 0x20#8, 0x78#8, 0x33#8, 0x31#8, 0x2C#8, 0x20#8,
    0x78#8, 0x33#8, 0x30#8, 0x2C#8, 0x20#8, 0x2D#8, 0x31#8] = .instr (.xori 31 30 0xFFFFFFFF#32) := by decide

/-- `slti x7, x1, 0xFFF`. -/
theorem test_decode_slti : decode [0x73#8, 0x6C#8, 0x74#8, 0x69#8, 0x20#8, 0x78#8, 0x37#8, 0x2C#8, 0x20#8, 0x78#8,
    0x31#8, 0x2C#8, 0x20#8, 0x30#8, 0x78#8, 0x46#8, 0x46#8, 0x46#8] = .instr (.slti 7 1 0xFFFFFFFF#32) := by decide

/-- `lw x7, -4(x2)`. -/
theorem test_decode_lw : decode [0x6C#8, 0x77#8, 0x20#8, 0x78#8, 0x37#8, 0x2C#8, 0x20#8, 0x2D#8, 0x34#8, 0x28#8,
    0x78#8, 0x32#8, 0x29#8] = .instr (.lw 7 0xFFFFFFFC#32 2) := by decide

/-- `lb x6, 0(x4)`. -/
theorem test_decode_lb : decode [0x6C#8, 0x62#8, 0x20#8, 0x78#8, 0x36#8, 0x2C#8, 0x20#8, 0x30#8, 0x28#8, 0x78#8,
    0x34#8, 0x29#8] = .instr (.lb 6 0#32 4) := by decide

/-- `sw x4, 4(x2)`. -/
theorem test_decode_sw : decode [0x73#8, 0x77#8, 0x20#8, 0x78#8, 0x34#8, 0x2C#8, 0x20#8, 0x34#8, 0x28#8, 0x78#8,
    0x32#8, 0x29#8] = .instr (.sw 4 4#32 2) := by decide

/-- `sb x4, -1(x2)`. -/
theorem test_decode_sb : decode [0x73#8, 0x62#8, 0x20#8, 0x78#8, 0x34#8, 0x2C#8, 0x20#8, 0x2D#8, 0x31#8, 0x28#8,
    0x78#8, 0x32#8, 0x29#8] = .instr (.sb 4 0xFFFFFFFF#32 2) := by decide

/-- `lui x4, 0xFEDCC`. -/
theorem test_decode_lui : decode [0x6C#8, 0x75#8, 0x69#8, 0x20#8, 0x78#8, 0x34#8, 0x2C#8, 0x20#8, 0x30#8, 0x78#8,
    0x46#8, 0x45#8, 0x44#8, 0x43#8, 0x43#8] = .instr (.lui 4 0xFEDCC#32) := by decide

/-! ### Decoding: the other vectors of 95_test_vectors.md section 2, by what they show -/

/-- Spaces are deleted, inside a token too, and the three separators are alike. -/
theorem test_decode_spaces :
    -- `add   x3 ,x1,  x2`
    decode [0x61#8, 0x64#8, 0x64#8, 0x20#8, 0x20#8, 0x20#8, 0x78#8, 0x33#8, 0x20#8, 0x2C#8, 0x78#8, 0x31#8, 0x2C#8,
      0x20#8, 0x20#8, 0x78#8, 0x32#8] = .instr (.add 3 1 2) ∧
    -- `add x 3, x1, x2`
    decode [0x61#8, 0x64#8, 0x64#8, 0x20#8, 0x78#8, 0x20#8, 0x33#8, 0x2C#8, 0x20#8, 0x78#8, 0x31#8, 0x2C#8, 0x20#8,
      0x78#8, 0x32#8] = .instr (.add 3 1 2) ∧
    -- `add x3(x1)x2`
    decode [0x61#8, 0x64#8, 0x64#8, 0x20#8, 0x78#8, 0x33#8, 0x28#8, 0x78#8, 0x31#8, 0x29#8, 0x78#8, 0x32#8] = .instr
      (.add 3 1 2) ∧
    -- `add x3, x1, x2,`
    decode [0x61#8, 0x64#8, 0x64#8, 0x20#8, 0x78#8, 0x33#8, 0x2C#8, 0x20#8, 0x78#8, 0x31#8, 0x2C#8, 0x20#8, 0x78#8,
      0x32#8, 0x2C#8] = .instr (.add 3 1 2) ∧
    -- `addi x1, x0, 5 6`
    decode [0x61#8, 0x64#8, 0x64#8, 0x69#8, 0x20#8, 0x78#8, 0x31#8, 0x2C#8, 0x20#8, 0x78#8, 0x30#8, 0x2C#8, 0x20#8,
      0x35#8, 0x20#8, 0x36#8] = .instr (.addi 1 0 56#32) ∧
    -- `lw x1 , 0 ( x2 )`
    decode [0x6C#8, 0x77#8, 0x20#8, 0x78#8, 0x31#8, 0x20#8, 0x2C#8, 0x20#8, 0x30#8, 0x20#8, 0x28#8, 0x20#8, 0x78#8,
      0x32#8, 0x20#8, 0x29#8] = .instr (.lw 1 0#32 2) ∧
    -- `lw x1,0,x2`
    decode [0x6C#8, 0x77#8, 0x20#8, 0x78#8, 0x31#8, 0x2C#8, 0x30#8, 0x2C#8, 0x78#8, 0x32#8] = .instr (.lw 1 0#32 2) ∧
    -- `lw x1, 0(x2`
    decode [0x6C#8, 0x77#8, 0x20#8, 0x78#8, 0x31#8, 0x2C#8, 0x20#8, 0x30#8, 0x28#8, 0x78#8, 0x32#8] = .instr (.lw 1
      0#32 2) ∧
    -- `lui x5, 1)`
    decode [0x6C#8, 0x75#8, 0x69#8, 0x20#8, 0x78#8, 0x35#8, 0x2C#8, 0x20#8, 0x31#8, 0x29#8] = .instr (.lui 5 1#32) :=
      by decide

/-- A wrong number of fields is refused; the source's own Scenario A text is one (90_conflicts.md C1). -/
theorem test_decode_operandCount :
    -- `add x3, x1, x2, x4`
    decode [0x61#8, 0x64#8, 0x64#8, 0x20#8, 0x78#8, 0x33#8, 0x2C#8, 0x20#8, 0x78#8, 0x31#8, 0x2C#8, 0x20#8, 0x78#8,
      0x32#8, 0x2C#8, 0x20#8, 0x78#8, 0x34#8] = .refuse .operandCount ∧
    -- `add x3, x1`
    decode [0x61#8, 0x64#8, 0x64#8, 0x20#8, 0x78#8, 0x33#8, 0x2C#8, 0x20#8, 0x78#8, 0x31#8] = .refuse .operandCount ∧
    -- `add x3,, x1, x2`
    decode [0x61#8, 0x64#8, 0x64#8, 0x20#8, 0x78#8, 0x33#8, 0x2C#8, 0x2C#8, 0x20#8, 0x78#8, 0x31#8, 0x2C#8, 0x20#8,
      0x78#8, 0x32#8] = .refuse .operandCount ∧
    -- `add x3 x1 x2`
    decode [0x61#8, 0x64#8, 0x64#8, 0x20#8, 0x78#8, 0x33#8, 0x20#8, 0x78#8, 0x31#8, 0x20#8, 0x78#8, 0x32#8] = .refuse
      .operandCount ∧
    -- `addi x1 x0 5`
    decode [0x61#8, 0x64#8, 0x64#8, 0x69#8, 0x20#8, 0x78#8, 0x31#8, 0x20#8, 0x78#8, 0x30#8, 0x20#8, 0x35#8] = .refuse
      .operandCount ∧
    -- `sw x1 0(x0)`
    decode [0x73#8, 0x77#8, 0x20#8, 0x78#8, 0x31#8, 0x20#8, 0x30#8, 0x28#8, 0x78#8, 0x30#8, 0x29#8] = .refuse
      .operandCount ∧
    -- `add `
    decode [0x61#8, 0x64#8, 0x64#8, 0x20#8] = .refuse .operandCount ∧
    -- `addi x1, x0, `
    decode [0x61#8, 0x64#8, 0x64#8, 0x69#8, 0x20#8, 0x78#8, 0x31#8, 0x2C#8, 0x20#8, 0x78#8, 0x30#8, 0x2C#8, 0x20#8] =
      .refuse .operandCount ∧
    -- `lw x1, (x2)`
    decode [0x6C#8, 0x77#8, 0x20#8, 0x78#8, 0x31#8, 0x2C#8, 0x20#8, 0x28#8, 0x78#8, 0x32#8, 0x29#8] = .refuse
      .operandCount ∧
    -- `lui x5, 1, 2`
    decode [0x6C#8, 0x75#8, 0x69#8, 0x20#8, 0x78#8, 0x35#8, 0x2C#8, 0x20#8, 0x31#8, 0x2C#8, 0x20#8, 0x32#8] = .refuse
      .operandCount ∧
    -- `lui x5`
    decode [0x6C#8, 0x75#8, 0x69#8, 0x20#8, 0x78#8, 0x35#8] = .refuse .operandCount := by decide

/-- Texts that do not split are refused; the NUL code is refused before anything else. -/
theorem test_decode_split :
    -- `add`
    decode [0x61#8, 0x64#8, 0x64#8] = .refuse .noSeparator ∧
    -- `nop`
    decode [0x6E#8, 0x6F#8, 0x70#8] = .refuse .noSeparator ∧
    -- `ecall`
    decode [0x65#8, 0x63#8, 0x61#8, 0x6C#8, 0x6C#8] = .refuse .noSeparator ∧
    -- the empty text
    decode [] = .refuse .noSeparator ∧
    -- ` add x1, x2, x3`
    decode [0x20#8, 0x61#8, 0x64#8, 0x64#8, 0x20#8, 0x78#8, 0x31#8, 0x2C#8, 0x20#8, 0x78#8, 0x32#8, 0x2C#8, 0x20#8,
      0x78#8, 0x33#8] = .refuse .emptyMnemonic ∧
    -- ` `
    decode [0x20#8] = .refuse .emptyMnemonic ∧
    -- `add x3, x1, x2<code 0x00>`
    decode [0x61#8, 0x64#8, 0x64#8, 0x20#8, 0x78#8, 0x33#8, 0x2C#8, 0x20#8, 0x78#8, 0x31#8, 0x2C#8, 0x20#8, 0x78#8,
      0x32#8, 0x00#8] = .refuse .nulCharacter ∧
    -- `<code 0x00>`
    decode [0x00#8] = .refuse .nulCharacter := by decide

/-- Unknown mnemonics, the case of letters and the exact mnemonic counting. -/
theorem test_decode_skip :
    -- `ADD x1, x2, x3`
    decode [0x41#8, 0x44#8, 0x44#8, 0x20#8, 0x78#8, 0x31#8, 0x2C#8, 0x20#8, 0x78#8, 0x32#8, 0x2C#8, 0x20#8, 0x78#8,
      0x33#8] = .skip ∧
    -- `addu x1, x2, x3`
    decode [0x61#8, 0x64#8, 0x64#8, 0x75#8, 0x20#8, 0x78#8, 0x31#8, 0x2C#8, 0x20#8, 0x78#8, 0x32#8, 0x2C#8, 0x20#8,
      0x78#8, 0x33#8] = .skip ∧
    -- `add\tx3, x1, x2`
    decode [0x61#8, 0x64#8, 0x64#8, 0x09#8, 0x78#8, 0x33#8, 0x2C#8, 0x20#8, 0x78#8, 0x31#8, 0x2C#8, 0x20#8, 0x78#8,
      0x32#8] = .skip ∧
    -- `nop `
    decode [0x6E#8, 0x6F#8, 0x70#8, 0x20#8] = .skip ∧
    -- `ecall `
    decode [0x65#8, 0x63#8, 0x61#8, 0x6C#8, 0x6C#8, 0x20#8] = .skip ∧
    -- `foo x1 x2`
    decode [0x66#8, 0x6F#8, 0x6F#8, 0x20#8, 0x78#8, 0x31#8, 0x20#8, 0x78#8, 0x32#8] = .skip ∧
    -- `slli x1, x1, 2`
    decode [0x73#8, 0x6C#8, 0x6C#8, 0x69#8, 0x20#8, 0x78#8, 0x31#8, 0x2C#8, 0x20#8, 0x78#8, 0x31#8, 0x2C#8, 0x20#8,
      0x32#8] = .skip ∧
    -- `lbu x1, 0(x2)`
    decode [0x6C#8, 0x62#8, 0x75#8, 0x20#8, 0x78#8, 0x31#8, 0x2C#8, 0x20#8, 0x30#8, 0x28#8, 0x78#8, 0x32#8, 0x29#8] =
      .skip ∧
    -- `add, x1, x2, x3`
    decode [0x61#8, 0x64#8, 0x64#8, 0x2C#8, 0x20#8, 0x78#8, 0x31#8, 0x2C#8, 0x20#8, 0x78#8, 0x32#8, 0x2C#8, 0x20#8,
      0x78#8, 0x33#8] = .skip ∧
    -- `beq x1, x1, 8`
    decode [0x62#8, 0x65#8, 0x71#8, 0x20#8, 0x78#8, 0x31#8, 0x2C#8, 0x20#8, 0x78#8, 0x31#8, 0x2C#8, 0x20#8, 0x38#8] =
      .skip ∧
    -- `jal x5, 16`
    decode [0x6A#8, 0x61#8, 0x6C#8, 0x20#8, 0x78#8, 0x35#8, 0x2C#8, 0x20#8, 0x31#8, 0x36#8] = .skip ∧
    -- `srl x1, x2, x3`
    decode [0x73#8, 0x72#8, 0x6C#8, 0x20#8, 0x78#8, 0x31#8, 0x2C#8, 0x20#8, 0x78#8, 0x32#8, 0x2C#8, 0x20#8, 0x78#8,
      0x33#8] = .skip ∧
    -- `sltu x1, x2, x3`
    decode [0x73#8, 0x6C#8, 0x74#8, 0x75#8, 0x20#8, 0x78#8, 0x31#8, 0x2C#8, 0x20#8, 0x78#8, 0x32#8, 0x2C#8, 0x20#8,
      0x78#8, 0x33#8] = .skip ∧
    -- `fence rw, rw`
    decode [0x66#8, 0x65#8, 0x6E#8, 0x63#8, 0x65#8, 0x20#8, 0x72#8, 0x77#8, 0x2C#8, 0x20#8, 0x72#8, 0x77#8] = .skip ∧
    -- `mv x1, x2`
    decode [0x6D#8, 0x76#8, 0x20#8, 0x78#8, 0x31#8, 0x2C#8, 0x20#8, 0x78#8, 0x32#8] = .skip := by decide

/-- Register tokens. -/
theorem test_decode_registers :
    -- `add x32, x1, x2`
    decode [0x61#8, 0x64#8, 0x64#8, 0x20#8, 0x78#8, 0x33#8, 0x32#8, 0x2C#8, 0x20#8, 0x78#8, 0x31#8, 0x2C#8, 0x20#8,
      0x78#8, 0x32#8] = .refuse .registerIndexOutOfRange ∧
    -- `sw x1, 4(x33)`
    decode [0x73#8, 0x77#8, 0x20#8, 0x78#8, 0x31#8, 0x2C#8, 0x20#8, 0x34#8, 0x28#8, 0x78#8, 0x33#8, 0x33#8, 0x29#8] =
      .refuse .registerIndexOutOfRange ∧
    -- `add x03, x1, x2`
    decode [0x61#8, 0x64#8, 0x64#8, 0x20#8, 0x78#8, 0x30#8, 0x33#8, 0x2C#8, 0x20#8, 0x78#8, 0x31#8, 0x2C#8, 0x20#8,
      0x78#8, 0x32#8] = .instr (.add 3 1 2) ∧
    -- `add a0, x1, x2`
    decode [0x61#8, 0x64#8, 0x64#8, 0x20#8, 0x61#8, 0x30#8, 0x2C#8, 0x20#8, 0x78#8, 0x31#8, 0x2C#8, 0x20#8, 0x78#8,
      0x32#8] = .refuse .badToken ∧
    -- `add x3, x1, 5`
    decode [0x61#8, 0x64#8, 0x64#8, 0x20#8, 0x78#8, 0x33#8, 0x2C#8, 0x20#8, 0x78#8, 0x31#8, 0x2C#8, 0x20#8, 0x35#8] =
      .refuse .badToken ∧
    -- `add x3, x1, x2\n`
    decode [0x61#8, 0x64#8, 0x64#8, 0x20#8, 0x78#8, 0x33#8, 0x2C#8, 0x20#8, 0x78#8, 0x31#8, 0x2C#8, 0x20#8, 0x78#8,
      0x32#8, 0x0A#8] = .refuse .badToken := by decide

/-- Register-Immediate numbers; 0xFFF and 0x7FF are the source's own property. -/
theorem test_decode_immediates :
    -- `addi x1, x0, 2047`
    decode [0x61#8, 0x64#8, 0x64#8, 0x69#8, 0x20#8, 0x78#8, 0x31#8, 0x2C#8, 0x20#8, 0x78#8, 0x30#8, 0x2C#8, 0x20#8,
      0x32#8, 0x30#8, 0x34#8, 0x37#8] = .instr (.addi 1 0 0x7FF#32) ∧
    -- `addi x1, x0, 0x7FF`
    decode [0x61#8, 0x64#8, 0x64#8, 0x69#8, 0x20#8, 0x78#8, 0x31#8, 0x2C#8, 0x20#8, 0x78#8, 0x30#8, 0x2C#8, 0x20#8,
      0x30#8, 0x78#8, 0x37#8, 0x46#8, 0x46#8] = .instr (.addi 1 0 0x7FF#32) ∧
    -- `addi x1, x0, 2048`
    decode [0x61#8, 0x64#8, 0x64#8, 0x69#8, 0x20#8, 0x78#8, 0x31#8, 0x2C#8, 0x20#8, 0x78#8, 0x30#8, 0x2C#8, 0x20#8,
      0x32#8, 0x30#8, 0x34#8, 0x38#8] = .instr (.addi 1 0 0xFFFFF800#32) ∧
    -- `addi x1, x0, 4095`
    decode [0x61#8, 0x64#8, 0x64#8, 0x69#8, 0x20#8, 0x78#8, 0x31#8, 0x2C#8, 0x20#8, 0x78#8, 0x30#8, 0x2C#8, 0x20#8,
      0x34#8, 0x30#8, 0x39#8, 0x35#8] = .instr (.addi 1 0 0xFFFFFFFF#32) ∧
    -- `addi x1, x0, 4096`
    decode [0x61#8, 0x64#8, 0x64#8, 0x69#8, 0x20#8, 0x78#8, 0x31#8, 0x2C#8, 0x20#8, 0x78#8, 0x30#8, 0x2C#8, 0x20#8,
      0x34#8, 0x30#8, 0x39#8, 0x36#8] = .refuse .immediateOutOfRange ∧
    -- `addi x1, x0, -2048`
    decode [0x61#8, 0x64#8, 0x64#8, 0x69#8, 0x20#8, 0x78#8, 0x31#8, 0x2C#8, 0x20#8, 0x78#8, 0x30#8, 0x2C#8, 0x20#8,
      0x2D#8, 0x32#8, 0x30#8, 0x34#8, 0x38#8] = .instr (.addi 1 0 0xFFFFF800#32) ∧
    -- `addi x1, x0, -2049`
    decode [0x61#8, 0x64#8, 0x64#8, 0x69#8, 0x20#8, 0x78#8, 0x31#8, 0x2C#8, 0x20#8, 0x78#8, 0x30#8, 0x2C#8, 0x20#8,
      0x2D#8, 0x32#8, 0x30#8, 0x34#8, 0x39#8] = .refuse .immediateOutOfRange ∧
    -- `addi x1, x0, 0xFFF`
    decode [0x61#8, 0x64#8, 0x64#8, 0x69#8, 0x20#8, 0x78#8, 0x31#8, 0x2C#8, 0x20#8, 0x78#8, 0x30#8, 0x2C#8, 0x20#8,
      0x30#8, 0x78#8, 0x46#8, 0x46#8, 0x46#8] = .instr (.addi 1 0 0xFFFFFFFF#32) ∧
    -- `addi x1, x0, 0xfff`
    decode [0x61#8, 0x64#8, 0x64#8, 0x69#8, 0x20#8, 0x78#8, 0x31#8, 0x2C#8, 0x20#8, 0x78#8, 0x30#8, 0x2C#8, 0x20#8,
      0x30#8, 0x78#8, 0x66#8, 0x66#8, 0x66#8] = .instr (.addi 1 0 0xFFFFFFFF#32) ∧
    -- `addi x1, x0, 0XFFF`
    decode [0x61#8, 0x64#8, 0x64#8, 0x69#8, 0x20#8, 0x78#8, 0x31#8, 0x2C#8, 0x20#8, 0x78#8, 0x30#8, 0x2C#8, 0x20#8,
      0x30#8, 0x58#8, 0x46#8, 0x46#8, 0x46#8] = .refuse .badToken ∧
    -- `addi x1, x0, -0x1`
    decode [0x61#8, 0x64#8, 0x64#8, 0x69#8, 0x20#8, 0x78#8, 0x31#8, 0x2C#8, 0x20#8, 0x78#8, 0x30#8, 0x2C#8, 0x20#8,
      0x2D#8, 0x30#8, 0x78#8, 0x31#8] = .instr (.addi 1 0 0xFFFFFFFF#32) ∧
    -- `addi x1, x0, -0x800`
    decode [0x61#8, 0x64#8, 0x64#8, 0x69#8, 0x20#8, 0x78#8, 0x31#8, 0x2C#8, 0x20#8, 0x78#8, 0x30#8, 0x2C#8, 0x20#8,
      0x2D#8, 0x30#8, 0x78#8, 0x38#8, 0x30#8, 0x30#8] = .instr (.addi 1 0 0xFFFFF800#32) ∧
    -- `addi x1, x0, 010`
    decode [0x61#8, 0x64#8, 0x64#8, 0x69#8, 0x20#8, 0x78#8, 0x31#8, 0x2C#8, 0x20#8, 0x78#8, 0x30#8, 0x2C#8, 0x20#8,
      0x30#8, 0x31#8, 0x30#8] = .instr (.addi 1 0 10#32) ∧
    -- `addi x1, x0, +5`
    decode [0x61#8, 0x64#8, 0x64#8, 0x69#8, 0x20#8, 0x78#8, 0x31#8, 0x2C#8, 0x20#8, 0x78#8, 0x30#8, 0x2C#8, 0x20#8,
      0x2B#8, 0x35#8] = .refuse .badToken ∧
    -- `addi x1, x0, x5`
    decode [0x61#8, 0x64#8, 0x64#8, 0x69#8, 0x20#8, 0x78#8, 0x31#8, 0x2C#8, 0x20#8, 0x78#8, 0x30#8, 0x2C#8, 0x20#8,
      0x78#8, 0x35#8] = .refuse .badToken := by decide

/-- One text is one instruction: `#` and `;` are ordinary characters (30_encoding.md R90), and every customary or cleaned form of an operand list is read alike (R92). -/
theorem test_decode_notation :
    -- `add x3, x1, x2 # c`
    decode [0x61#8, 0x64#8, 0x64#8, 0x20#8, 0x78#8, 0x33#8, 0x2C#8, 0x20#8, 0x78#8, 0x31#8, 0x2C#8, 0x20#8, 0x78#8,
      0x32#8, 0x20#8, 0x23#8, 0x20#8, 0x63#8] = .refuse .badToken ∧
    -- `add x3, x1, x2; nop`
    decode [0x61#8, 0x64#8, 0x64#8, 0x20#8, 0x78#8, 0x33#8, 0x2C#8, 0x20#8, 0x78#8, 0x31#8, 0x2C#8, 0x20#8, 0x78#8,
      0x32#8, 0x3B#8, 0x20#8, 0x6E#8, 0x6F#8, 0x70#8] = .refuse .badToken ∧
    -- `add 1, 2, 3`
    decode [0x61#8, 0x64#8, 0x64#8, 0x20#8, 0x31#8, 0x2C#8, 0x20#8, 0x32#8, 0x2C#8, 0x20#8, 0x33#8] = .refuse
      .badToken ∧
    -- `add X3, x1, x2`
    decode [0x61#8, 0x64#8, 0x64#8, 0x20#8, 0x58#8, 0x33#8, 0x2C#8, 0x20#8, 0x78#8, 0x31#8, 0x2C#8, 0x20#8, 0x78#8,
      0x32#8] = .refuse .badToken ∧
    -- `lw x1,0(x2)`
    decode [0x6C#8, 0x77#8, 0x20#8, 0x78#8, 0x31#8, 0x2C#8, 0x30#8, 0x28#8, 0x78#8, 0x32#8, 0x29#8] = .instr (.lw 1
      0#32 2) ∧
    -- `lw x1(0)x2`
    decode [0x6C#8, 0x77#8, 0x20#8, 0x78#8, 0x31#8, 0x28#8, 0x30#8, 0x29#8, 0x78#8, 0x32#8] = .instr (.lw 1 0#32 2) ∧
    -- `li x1, 5`
    decode [0x6C#8, 0x69#8, 0x20#8, 0x78#8, 0x31#8, 0x2C#8, 0x20#8, 0x35#8] = .skip ∧
    -- `j 8`
    decode [0x6A#8, 0x20#8, 0x38#8] = .skip := by decide

/-- Offsets are neither sign-extended nor scaled, and must fit 32 bits signed. -/
theorem test_decode_offsets :
    -- `lw x1, 0xFFF(x2)`
    decode [0x6C#8, 0x77#8, 0x20#8, 0x78#8, 0x31#8, 0x2C#8, 0x20#8, 0x30#8, 0x78#8, 0x46#8, 0x46#8, 0x46#8, 0x28#8,
      0x78#8, 0x32#8, 0x29#8] = .instr (.lw 1 0xFFF#32 2) ∧
    -- `lw x1, -1(x2)`
    decode [0x6C#8, 0x77#8, 0x20#8, 0x78#8, 0x31#8, 0x2C#8, 0x20#8, 0x2D#8, 0x31#8, 0x28#8, 0x78#8, 0x32#8, 0x29#8] =
      .instr (.lw 1 0xFFFFFFFF#32 2) ∧
    -- `lw x1, 2147483647(x0)`
    decode [0x6C#8, 0x77#8, 0x20#8, 0x78#8, 0x31#8, 0x2C#8, 0x20#8, 0x32#8, 0x31#8, 0x34#8, 0x37#8, 0x34#8, 0x38#8,
      0x33#8, 0x36#8, 0x34#8, 0x37#8, 0x28#8, 0x78#8, 0x30#8, 0x29#8] = .instr (.lw 1 0x7FFFFFFF#32 0) ∧
    -- `lw x1, 2147483648(x0)`
    decode [0x6C#8, 0x77#8, 0x20#8, 0x78#8, 0x31#8, 0x2C#8, 0x20#8, 0x32#8, 0x31#8, 0x34#8, 0x37#8, 0x34#8, 0x38#8,
      0x33#8, 0x36#8, 0x34#8, 0x38#8, 0x28#8, 0x78#8, 0x30#8, 0x29#8] = .refuse .immediateOutOfRange ∧
    -- `lw x1, -2147483648(x0)`
    decode [0x6C#8, 0x77#8, 0x20#8, 0x78#8, 0x31#8, 0x2C#8, 0x20#8, 0x2D#8, 0x32#8, 0x31#8, 0x34#8, 0x37#8, 0x34#8,
      0x38#8, 0x33#8, 0x36#8, 0x34#8, 0x38#8, 0x28#8, 0x78#8, 0x30#8, 0x29#8] = .instr (.lw 1 0x80000000#32 0) ∧
    -- `lw x1, -0x80000000(x0)`
    decode [0x6C#8, 0x77#8, 0x20#8, 0x78#8, 0x31#8, 0x2C#8, 0x20#8, 0x2D#8, 0x30#8, 0x78#8, 0x38#8, 0x30#8, 0x30#8,
      0x30#8, 0x30#8, 0x30#8, 0x30#8, 0x30#8, 0x28#8, 0x78#8, 0x30#8, 0x29#8] = .instr (.lw 1 0x80000000#32 0) ∧
    -- `lw x1, 0xFFFFFFFF(x0)`
    decode [0x6C#8, 0x77#8, 0x20#8, 0x78#8, 0x31#8, 0x2C#8, 0x20#8, 0x30#8, 0x78#8, 0x46#8, 0x46#8, 0x46#8, 0x46#8,
      0x46#8, 0x46#8, 0x46#8, 0x46#8, 0x28#8, 0x78#8, 0x30#8, 0x29#8] = .refuse .immediateOutOfRange := by decide

/-- Upper-Immediate numbers are 20 bits, unsigned. -/
theorem test_decode_upper :
    -- `lui x5, 1`
    decode [0x6C#8, 0x75#8, 0x69#8, 0x20#8, 0x78#8, 0x35#8, 0x2C#8, 0x20#8, 0x31#8] = .instr (.lui 5 1#32) ∧
    -- `lui x5, 0xFFFFF`
    decode [0x6C#8, 0x75#8, 0x69#8, 0x20#8, 0x78#8, 0x35#8, 0x2C#8, 0x20#8, 0x30#8, 0x78#8, 0x46#8, 0x46#8, 0x46#8,
      0x46#8, 0x46#8] = .instr (.lui 5 0xFFFFF#32) ∧
    -- `lui x5, 1048575`
    decode [0x6C#8, 0x75#8, 0x69#8, 0x20#8, 0x78#8, 0x35#8, 0x2C#8, 0x20#8, 0x31#8, 0x30#8, 0x34#8, 0x38#8, 0x35#8,
      0x37#8, 0x35#8] = .instr (.lui 5 0xFFFFF#32) ∧
    -- `lui x5, 0x100000`
    decode [0x6C#8, 0x75#8, 0x69#8, 0x20#8, 0x78#8, 0x35#8, 0x2C#8, 0x20#8, 0x30#8, 0x78#8, 0x31#8, 0x30#8, 0x30#8,
      0x30#8, 0x30#8, 0x30#8] = .refuse .immediateOutOfRange ∧
    -- `lui x5, -1`
    decode [0x6C#8, 0x75#8, 0x69#8, 0x20#8, 0x78#8, 0x35#8, 0x2C#8, 0x20#8, 0x2D#8, 0x31#8] = .refuse
      .immediateOutOfRange := by decide

/-- The first failing check is the one reported: a bad register before a bad number, a bad form before a bad range
(60_exceptions.md R177). -/
theorem test_decode_first_failure :
    -- `addi x32, x0, 4096`
    decode [0x61#8, 0x64#8, 0x64#8, 0x69#8, 0x20#8, 0x78#8, 0x33#8, 0x32#8, 0x2C#8, 0x20#8, 0x78#8, 0x30#8, 0x2C#8,
      0x20#8, 0x34#8, 0x30#8, 0x39#8, 0x36#8] = .refuse .registerIndexOutOfRange ∧
    -- `addi x1, y0, 4096`
    decode [0x61#8, 0x64#8, 0x64#8, 0x69#8, 0x20#8, 0x78#8, 0x31#8, 0x2C#8, 0x20#8, 0x79#8, 0x30#8, 0x2C#8, 0x20#8,
      0x34#8, 0x30#8, 0x39#8, 0x36#8] = .refuse .badToken ∧
    -- `lw x1, 4294967296(x32)`
    decode [0x6C#8, 0x77#8, 0x20#8, 0x78#8, 0x31#8, 0x2C#8, 0x20#8, 0x34#8, 0x32#8, 0x39#8, 0x34#8, 0x39#8, 0x36#8,
      0x37#8, 0x32#8, 0x39#8, 0x36#8, 0x28#8, 0x78#8, 0x33#8, 0x32#8, 0x29#8] = .refuse .immediateOutOfRange ∧
    -- `add x1, x32, y`
    decode [0x61#8, 0x64#8, 0x64#8, 0x20#8, 0x78#8, 0x31#8, 0x2C#8, 0x20#8, 0x78#8, 0x33#8, 0x32#8, 0x2C#8, 0x20#8,
      0x79#8] = .refuse .registerIndexOutOfRange := by decide

/-- The encoder writes the customary spelling: `sw x1, -2(x4)` (95_test_vectors.md section 9, program P4 line 8). -/
theorem test_encode_sw : encode (.sw 1 0xFFFFFFFE#32 4) = [0x73#8, 0x77#8, 0x20#8, 0x78#8, 0x31#8, 0x2C#8, 0x20#8,
    0x2D#8, 0x32#8, 0x28#8, 0x78#8, 0x34#8, 0x29#8] := by decide

/-! ### The words of spec/opcode_table.json: the first byte is the most significant (`match_applies_to`) -/

theorem test_decodeTableWord :
    let selected : Nat → Nat → Option Mnemonic := fun nbits w => (decodeTableWord nbits w).map Instr.mnemonic
    selected 32 0x61646420 = some .add ∧
    selected 32 0x73756220 = some .sub ∧
    selected 32 0x616E6420 = some .and ∧
    selected 24 0x6F7220 = some .or ∧
    selected 32 0x786F7220 = some .xor ∧
    selected 32 0x736C7420 = some .slt ∧
    selected 32 0x736C6C20 = some .sll ∧
    selected 32 0x73726120 = some .sra ∧
    selected 40 0x6164646920 = some .addi ∧
    selected 40 0x616E646920 = some .andi ∧
    selected 32 0x6F726920 = some .ori ∧
    selected 40 0x786F726920 = some .xori ∧
    selected 40 0x736C746920 = some .slti ∧
    selected 24 0x6C7720 = some .lw ∧
    selected 24 0x6C6220 = some .lb ∧
    selected 24 0x737720 = some .sw ∧
    selected 24 0x736220 = some .sb ∧
    selected 32 0x6C756920 = some .lui := by decide

/-- From reset, the next step runs each table word's instruction: the operands a row gives no bits are zeros. -/
theorem test_withFetchWord_step :
    let runs : Nat → Nat → Instr → Prop := fun nbits w i =>
      step (State.reset.withFetchWord nbits w) = exec i { State.reset.withFetchWord nbits w with seq := 1 }
    runs 32 0x61646420 (.add 0 0 0) ∧
    runs 32 0x73756220 (.sub 0 0 0) ∧
    runs 32 0x616E6420 (.and 0 0 0) ∧
    runs 24 0x6F7220 (.or 0 0 0) ∧
    runs 32 0x786F7220 (.xor 0 0 0) ∧
    runs 32 0x736C7420 (.slt 0 0 0) ∧
    runs 32 0x736C6C20 (.sll 0 0 0) ∧
    runs 32 0x73726120 (.sra 0 0 0) ∧
    runs 40 0x6164646920 (.addi 0 0 0#32) ∧
    runs 40 0x616E646920 (.andi 0 0 0#32) ∧
    runs 32 0x6F726920 (.ori 0 0 0#32) ∧
    runs 40 0x786F726920 (.xori 0 0 0#32) ∧
    runs 40 0x736C746920 (.slti 0 0 0#32) ∧
    runs 24 0x6C7720 (.lw 0 0#32 0) ∧
    runs 24 0x6C6220 (.lb 0 0#32 0) ∧
    runs 24 0x737720 (.sw 0 0#32 0) ∧
    runs 24 0x736220 (.sb 0 0#32 0) ∧
    runs 32 0x6C756920 (.lui 0 0#32) :=
  ⟨rfl, rfl, rfl, rfl, rfl, rfl, rfl, rfl, rfl, rfl, rfl, rfl, rfl, rfl, rfl, rfl, rfl, rfl⟩

/-! ### Register-Register (95_test_vectors.md section 3) -/

/-- `add` wraps. -/
theorem test_add :
    regAfter (exec (.add 3 1 2) (start [(1, 0x7FFFFFFF#32), (2, 1#32)])) 3 = some 0x80000000#32 ∧
    regAfter (exec (.add 3 1 2) (start [(1, 0x80000000#32), (2, 0x80000000#32)])) 3 = some 0#32 ∧
    regAfter (exec (.add 3 1 2) (start [(1, 5#32), (2, 3#32)])) 3 = some 8#32 := by decide

/-- `sub` takes the second source from the first, and wraps. -/
theorem test_sub :
    regAfter (exec (.sub 3 1 2) (start [(1, 3#32), (2, 5#32)])) 3 = some 0xFFFFFFFE#32 ∧
    regAfter (exec (.sub 3 1 2) (start [(1, 0#32), (2, 0x80000000#32)])) 3 = some 0x80000000#32 := by decide

/-- `and`. -/
theorem test_and :
    regAfter (exec (.and 3 1 2) (start [(1, 0xF0F0F0F0#32), (2, 0x0FF00FF0#32)])) 3 = some 0x00F000F0#32 := by decide

/-- `or`. -/
theorem test_or :
    regAfter (exec (.or 3 1 2) (start [(1, 0xF0F0F0F0#32), (2, 0x0FF00FF0#32)])) 3 = some 0xFFF0FFF0#32 := by decide

/-- `xor`. -/
theorem test_xor :
    regAfter (exec (.xor 3 1 2) (start [(1, 0xF0F0F0F0#32), (2, 0x0FF00FF0#32)])) 3 = some 0xFF00FF00#32 := by decide

/-- `slt` is signed and strict. -/
theorem test_slt :
    regAfter (exec (.slt 3 1 2) (start [(1, 0x80000000#32), (2, 0x7FFFFFFF#32)])) 3 = some 1#32 ∧
    regAfter (exec (.slt 3 1 2) (start [(1, 0x7FFFFFFF#32), (2, 0x80000000#32)])) 3 = some 0#32 ∧
    regAfter (exec (.slt 3 1 2) (start [(1, 5#32), (2, 5#32)])) 3 = some 0#32 := by decide

/-- `sll`; the last two rest on D10. -/
theorem test_sll :
    regAfter (exec (.sll 3 1 2) (start [(1, 1#32), (2, 0x1F#32)])) 3 = some 0x80000000#32 ∧
    regAfter (exec (.sll 3 1 2) (start [(1, 0x80000001#32), (2, 1#32)])) 3 = some 2#32 ∧
    regAfter (exec (.sll 3 1 2) (start [(1, 1#32), (2, 0x21#32)])) 3 = some 2#32 ∧
    regAfter (exec (.sll 3 1 2) (start [(1, 1#32), (2, 0xFFFFFFFF#32)])) 3 = some 0x80000000#32 := by decide

/-- `sra` fills with the sign; the last rests on D10. -/
theorem test_sra :
    regAfter (exec (.sra 3 1 2) (start [(1, 0x80000000#32), (2, 0x1F#32)])) 3 = some 0xFFFFFFFF#32 ∧
    regAfter (exec (.sra 3 1 2) (start [(1, 0x7FFFFFFF#32), (2, 4#32)])) 3 = some 0x07FFFFFF#32 ∧
    regAfter (exec (.sra 3 1 2) (start [(1, 0xFFFFFFF0#32), (2, 0x23#32)])) 3 = some 0xFFFFFFFE#32 := by decide

/-- The destination may be a source: every read comes before the write. -/
theorem test_aliasing :
    regAfter (exec (.add 1 1 1) (start [(1, 6#32)])) 1 = some 12#32 ∧
    regAfter (exec (.sub 1 1 1) (start [(1, 6#32)])) 1 = some 0#32 ∧
    regAfter (exec (.xor 1 1 1) (start [(1, 6#32)])) 1 = some 0#32 ∧
    regAfter (exec (.slt 1 1 1) (start [(1, 6#32)])) 1 = some 0#32 := by decide

/-! ### Register-Immediate (95_test_vectors.md section 4) -/

theorem test_addi :
    regAfter (exec (.addi 2 1 1#32) (start [(1, 0x7FFFFFFF#32)])) 2 = some 0x80000000#32 ∧
    regAfter (exec (.addi 2 1 0xFFFFF800#32) (start [(1, 0x1000#32)])) 2 = some 0x800#32 := by decide

theorem test_andi :
    regAfter (exec (.andi 2 1 0xFF#32) (start [(1, 0x12345678#32)])) 2 = some 0x78#32 ∧
    regAfter (exec (.andi 2 1 0xFFFFF800#32) (start [(1, 0x12345FFF#32)])) 2 = some 0x12345800#32 := by decide

theorem test_ori :
    regAfter (exec (.ori 2 1 0x678#32) (start [(1, 0x12345000#32)])) 2 = some 0x12345678#32 ∧
    regAfter (exec (.ori 2 1 0xFFFFF800#32) (start [(1, 0#32)])) 2 = some 0xFFFFF800#32 := by decide

theorem test_xori :
    regAfter (exec (.xori 2 1 0xFFFFFFFF#32) (start [(1, 0xFFFF#32)])) 2 = some 0xFFFF0000#32 ∧
    regAfter (exec (.xori 2 1 0x7FF#32) (start [(1, 0x7FF#32)])) 2 = some 0#32 := by decide

theorem test_slti :
    regAfter (exec (.slti 2 1 0xFFFFFFFC#32) (start [(1, 0xFFFFFFFB#32)])) 2 = some 1#32 ∧
    regAfter (exec (.slti 2 1 0xFFFFFFFF#32) (start [(1, 0#32)])) 2 = some 0#32 ∧
    regAfter (exec (.slti 2 1 7#32) (start [(1, 7#32)])) 2 = some 0#32 ∧
    regAfter (exec (.slti 2 1 0xFFFFF800#32) (start [(1, 0x80000000#32)])) 2 = some 1#32 := by decide

/-! ### Memory (95_test_vectors.md sections 5 and 9) -/

/-- `sw` is little-endian and counts four cells, zeros too; a second store over half of it counts two. -/
theorem test_sw :
    cellsAfter (exec (.sw 1 0#32 2) (start [(1, 0x12345678#32), (2, 100#32)])) [100#32, 101#32, 102#32, 103#32] =
      some ([0x78#8, 0x56#8, 0x34#8, 0x12#8], 4) ∧
    cellsAfter (exec (.sw 1 0#32 2) (start [(2, 100#32)])) [100#32, 103#32] = some ([0#8, 0#8], 4) ∧
    cellsAfter (thenExec (exec (.sw 1 0#32 0) (start [(1, 0xAABBCCDD#32), (2, 0x11223344#32)])) (.sw 2 2#32 0))
      [0#32, 1#32, 2#32, 3#32, 4#32, 5#32] = some ([0xDD#8, 0xCC#8, 0x44#8, 0x33#8, 0x22#8, 0x11#8], 6) := by decide

/-- The effective address and the byte addresses wrap (D9). -/
theorem test_sw_wraps :
    cellsAfter (exec (.sw 1 1#32 2) (start [(1, 0xA1B2C3D4#32), (2, 0x7FFFFFFF#32)]))
      [0x80000000#32, 0x80000001#32, 0x80000002#32, 0x80000003#32] = some ([0xD4#8, 0xC3#8, 0xB2#8, 0xA1#8], 4) ∧
    cellsAfter (exec (.sw 1 0#32 2) (start [(1, 0xA1B2C3D4#32), (2, 0xFFFFFFFE#32)]))
      [0xFFFFFFFE#32, 0xFFFFFFFF#32, 0#32, 1#32] = some ([0xD4#8, 0xC3#8, 0xB2#8, 0xA1#8], 4) := by decide

/-- `lw` at unaligned and negative offsets over a stored word; the base is read before the destination is written. -/
theorem test_lw :
    regAfter (thenExec (exec (.sw 1 0#32 2) (start [(1, 0x12345678#32), (2, 100#32)])) (.lw 3 1#32 2)) 3 =
      some 0x00123456#32 ∧
    regAfter (thenExec (exec (.sw 1 0#32 2) (start [(1, 0x12345678#32), (2, 100#32)])) (.lw 3 0xFFFFFFFE#32 2)) 3 =
      some 0x56780000#32 ∧
    regAfter (thenExec (exec (.sw 1 0#32 1) (start [(1, 64#32)])) (.lw 1 0#32 1)) 1 = some 64#32 := by decide

/-- A load of cells that were never written reads 0 and inserts nothing. -/
theorem test_lw_absent :
    regAfter (exec (.lw 1 1000#32 0) (start [(1, 7#32)])) 1 = some 0#32 ∧
    cellsAfter (exec (.lw 1 1000#32 0) State.reset) [1000#32] = some ([0#8], 0) := by decide

/-- `sb` stores the low byte and counts one cell. -/
theorem test_sb :
    cellsAfter (exec (.sb 1 5#32 0) (start [(1, 0xFFFFFF80#32)])) [5#32, 6#32] = some ([0x80#8, 0#8], 1) ∧
    regAfter (thenExec (exec (.sb 1 5#32 0) (start [(1, 0xFFFFFF80#32)])) (.lw 3 5#32 0)) 3 = some 0x80#32 := by decide

/-- `lb` sign-extends from bit 7. -/
theorem test_lb :
    regAfter (thenExec (exec (.sb 1 8#32 0) (start [(1, 0x1234ABCD#32)])) (.lb 2 8#32 0)) 2 = some 0xFFFFFFCD#32 ∧
    regAfter (thenExec (exec (.sb 1 8#32 0) (start [(1, 0x17F#32)])) (.lb 2 8#32 0)) 2 = some 127#32 := by decide

/-! ### Upper-Immediate and register 0 (95_test_vectors.md sections 3 and 6) -/

theorem test_lui :
    regAfter (exec (.lui 5 0x12345#32) (start [(5, 0xFFF#32)])) 5 = some 0x12345000#32 ∧
    regAfter (exec (.lui 5 0x80000#32) State.reset) 5 = some 0x80000000#32 ∧
    regAfter (exec (.lui 0 1#32) State.reset) 0 = some 0x1000#32 := by decide

theorem test_register_zero :
    regAfter (exec (.addi 0 0 5#32) State.reset) 0 = some 5#32 ∧
    regAfter (thenExec (exec (.addi 0 0 5#32) State.reset) (.add 1 0 0)) 1 = some 10#32 := by decide

/-! ### The store and its buckets (95_test_vectors.md sections 1.4 and 5) -/

theorem test_store_size :
    ((Memory.empty.put 1#32 0#8).put 2#32 0#8).size = 2 ∧
    (((Memory.empty.put 1#32 0#8).put 2#32 0#8).put 1#32 9#8).size = 2 ∧
    (Memory.empty.put 0xFFFFFFFB#32 200#8).get 0xFFFFFFFB#32 = 200#8 ∧
    (Memory.empty.put 0xFFFFFFFB#32 200#8).get 5#32 = 0#8 := by decide

theorem test_bucketHash :
    bucketHash 16 5#32 = 5 ∧ bucketHash 16 0xFFFFFFFB#32 = 5 ∧ bucketHash 16 21#32 = 5 ∧ bucketHash 7 0xFFFFFF9C#32 = 2 ∧
    bucketHash 16 0x7FFFFFFF#32 = 15 ∧ bucketHash 16 0x80000000#32 = 0 ∧ bucketHash 7 0x80000000#32 = 2 ∧
    bucketHash 1000 0x80000000#32 = 648 ∧ bucketHash 1 12345#32 = 0 := by decide

/-- Four keys that share bucket 5 of 16 stay distinct, and a fifth, absent, reads 0. -/
theorem test_bucketStore :
    let b := ((((BucketStore.init 16).put 5#32 1#8).put 0xFFFFFFFB#32 2#8).put 21#32 3#8).put 0xFFFFFFEB#32 4#8
    b.size = 4 ∧ [5#32, 0xFFFFFFFB#32, 21#32, 0xFFFFFFEB#32, 37#32].map b.get = [1#8, 2#8, 3#8, 4#8, 0#8] := by decide

/-! ### Sessions, skips and refusals (95_test_vectors.md sections 7 and 8) -/

theorem test_createSession :
    createSession 16#32 = .next State.reset ∧ createSession 1#32 = .next State.reset ∧
    createSession 0#32 = .refused .bucketCount ∧ createSession 0xFFFFFFFD#32 = .refused .bucketCount := ⟨rfl, rfl, rfl, rfl⟩

theorem test_host_reads :
    readRegister (start [(31, 0xFFFFFFFF#32)]) 31 = .ok (-1) ∧ readRegister State.reset 32 = .error .badRegisterIndex ∧
    readRegister State.reset (-1) = .error .badRegisterIndex ∧
    readMemory { State.reset with memory := Memory.empty.put 9#32 0xFF#8 } 9#32 = 255 ∧ storeSize State.reset = 0 := by
  decide

/-- `foo x1 x2` changes nothing but the host's index; `add x3 x1 x2` has no next state. -/
theorem test_execute :
    execute [0x66#8, 0x6F#8, 0x6F#8, 0x20#8, 0x78#8, 0x31#8, 0x20#8, 0x78#8, 0x32#8] (start [(1, 7#32)]) = .next {
      start [(1, 7#32)] with seq := 1 } ∧
    execute [0x61#8, 0x64#8, 0x64#8, 0x20#8, 0x78#8, 0x33#8, 0x20#8, 0x78#8, 0x31#8, 0x20#8, 0x78#8, 0x32#8]
      State.reset = .refused (.decode .operandCount) := ⟨rfl, rfl⟩

/-! ### Witnesses: the hypotheses of each obligation can be met, clause by clause and at the ends of their ranges -/

theorem witness_DecodeOfEncodeIsTheInstruction :
    Instr.wellFormed (.addi 31 0 0xFFFFF800#32) = true ∧ Instr.wellFormed (.lui 0 0xFFFFF#32) = true := by decide

/-- Also for `InstructionSelectedByMnemonicPattern`, first clause. -/
theorem witness_DecodedInstructionIsWellFormed :
    decode [0x61#8, 0x64#8, 0x64#8, 0x69#8, 0x20#8, 0x78#8, 0x31#8, 0x2C#8, 0x20#8, 0x78#8, 0x30#8, 0x2C#8, 0x20#8,
      0x34#8, 0x30#8, 0x39#8, 0x35#8] = .instr (.addi 1 0 0xFFFFFFFF#32) := by decide

theorem witness_InstructionSelectedByMnemonicPattern :
    (mnemonicText .sb ++ [chSpace]) <+: (mnemonicText .sb ++ [chSpace]) := by decide

theorem witness_UnknownMnemonicIsSkipped :
    [0x66#8, 0x6F#8, 0x6F#8] ≠ ([] : Text) ∧ chSpace ∉ [0x66#8, 0x6F#8, 0x6F#8] ∧ chNul ∉ [0x66#8, 0x6F#8, 0x6F#8] ++
      [0x78#8, 0x31#8, 0x20#8, 0x78#8, 0x32#8] ∧ classify [0x66#8, 0x6F#8, 0x6F#8] = .unknown := by decide

theorem witness_TextsOutsideTheGrammarAreRefused :
    chNul ∈ [0x61#8, 0x00#8] ∧ (chNul ∉ [0x61#8, 0x64#8, 0x64#8] ∧ chSpace ∉ [0x61#8, 0x64#8, 0x64#8]) ∧ chNul ∉
      [0x61#8, 0x64#8, 0x64#8, 0x20#8, 0x78#8, 0x31#8] ∧ (chNul ∉ ([] : Text) ∧ chSpace ∉ ([] : Text)) := by decide

theorem witness_SpacesVanishAndSeparatorsAreAlike :
    chSpace ∉ [0x61#8, 0x64#8, 0x64#8] ∧ chComma ∈ [chComma, chOpen, chClose] ∧ chClose ∈ [chComma, chOpen, chClose]
      := by decide

theorem witness_WrongOperandCountIsRefused :
    (∀ c ∈ [0x78#8, 0x33#8, 0x20#8, 0x78#8, 0x31#8, 0x20#8, 0x78#8, 0x32#8], c ∉ [chComma, chOpen, chClose]) ∧ chNul
      ∉ [0x78#8, 0x33#8, 0x20#8, 0x78#8, 0x31#8, 0x20#8, 0x78#8, 0x32#8] ∧ ∀ t ∈ [[0x78#8, 0x33#8], [0x78#8, 0x31#8],
      [0x78#8, 0x32#8], [0x78#8, 0x34#8]], t ≠ [] ∧ ∀ x ∈ t, x ∉ [chSpace, chComma, chOpen, chClose, chNul] := by
      decide

/-- Both sides of 31; a token of no such form is in the next theorem. -/
theorem witness_RegisterTokenReadsItsDecimalNumber :
    ([3, 1] : List (Fin 10)) ≠ [] ∧ reg [0x78#8, 0x33#8, 0x31#8] = .ok 31 ∧ reg [0x78#8, 0x33#8, 0x32#8] = .error
      .registerIndexOutOfRange := by decide

theorem witness_RegisterTokenReadsItsDecimalNumber_other (ds : List (Fin 10)) (_ : ds ≠ []) :
    ([0x61#8, 0x30#8] : Text) ≠ chLowerX :: ds.map fun d => BitVec.ofNat 8 (0x30 + d.val) := by
  simp [chLowerX]

/-- Both ends of the range, in both bases; a token of neither form is in the next theorem. -/
theorem witness_NumberTokenReadsItsSignedValue :
    num [0x32#8, 0x31#8, 0x34#8, 0x37#8, 0x34#8, 0x38#8, 0x33#8, 0x36#8, 0x34#8, 0x37#8] = .ok 2147483647 ∧ num
      [0x32#8, 0x31#8, 0x34#8, 0x37#8, 0x34#8, 0x38#8, 0x33#8, 0x36#8, 0x34#8, 0x38#8] = .error .immediateOutOfRange
      ∧ num [0x2D#8, 0x32#8, 0x31#8, 0x34#8, 0x37#8, 0x34#8, 0x38#8, 0x33#8, 0x36#8, 0x34#8, 0x38#8] = .ok
      (-2147483648) ∧ num [0x2D#8, 0x30#8, 0x78#8, 0x38#8, 0x30#8, 0x30#8, 0x30#8, 0x30#8, 0x30#8, 0x30#8, 0x31#8] =
      .error .immediateOutOfRange ∧ num [0x30#8, 0x78#8, 0x66#8, 0x46#8] = .ok 255 := by decide

theorem witness_NumberTokenReadsItsSignedValue_other :
    (∀ (neg : Bool) (ds : List (Fin 10)), ds ≠ [] →
      ([0x2B#8] : Text) ≠ (if neg then [chMinus] else []) ++ ds.map fun d => BitVec.ofNat 8 (0x30 + d.val)) ∧
    ∀ (neg : Bool) (t : Text), ([0x2B#8] : Text) ≠ (if neg then [chMinus] else []) ++ chZero :: chLowerX :: t := by
  refine ⟨fun neg ds h => ?_, fun neg t => ?_⟩
  · cases neg
    · cases ds with
      | nil => exact absurd rfl h
      | cons d ds =>
        have hd : ∀ d : Fin 10, ¬ (0x2B#8 = BitVec.ofNat 8 (0x30 + d.val)) := by decide
        simpa using fun e => absurd e (hd d)
    · simp [chMinus]
  · cases neg <;> simp [chMinus, chZero]

theorem witness_Imm12IsTwelveBitSignExtension :
    (∃ a, imm12 (-2048) = .ok a ∧ a.toInt = -2048) ∧ (∃ a, imm12 2047 = .ok a ∧ a.toInt = 2047) ∧ (∃ a, imm12 2048 =
      .ok a ∧ a.toInt = -2048) ∧ (∃ a, imm12 4095 = .ok a ∧ a.toInt = -1) ∧ imm12 (-2049) = .error
      .immediateOutOfRange ∧ imm12 4096 = .error .immediateOutOfRange := ⟨⟨_, rfl, by decide⟩, ⟨_, rfl, by decide⟩,
      ⟨_, rfl, by decide⟩, ⟨_, rfl, by decide⟩, by decide, by decide⟩

theorem witness_OffsetAndUpperImmediateAreTakenAsWritten :
    off32 (-2147483648) = .ok 0x80000000#32 ∧ off32 2147483647 = .ok 0x7FFFFFFF#32 ∧ imm20 0 = .ok 0#32 ∧ imm20
      0xFFFFF = .ok 0xFFFFF#32 ∧ imm20 (-1) = .error .immediateOutOfRange ∧ imm20 0x100000 = .error
      .immediateOutOfRange := by decide

/-- Tokens for every clause: slot A failing, slot B failing as a register and as a number, slot C failing in each shape, a number out of its field's range. -/
theorem witness_FirstFailingSlotIsReported :
    reg [0x78#8, 0x33#8, 0x32#8] = .error .registerIndexOutOfRange ∧ reg [0x78#8, 0x31#8] = .ok 1 ∧ reg [0x79#8] =
      .error .badToken ∧ num [0x79#8] = .error .badToken ∧ num [0x37#8] = .ok 7 ∧ num [0x34#8, 0x30#8, 0x39#8,
      0x36#8] = .ok 4096 ∧ imm12 4096 = .error .immediateOutOfRange ∧ num [0x30#8, 0x78#8, 0x31#8, 0x30#8, 0x30#8,
      0x30#8, 0x30#8, 0x30#8] = .ok 0x100000 ∧ imm20 0x100000 = .error .immediateOutOfRange ∧ Mnemonic.shape .add =
      .registerRegister ∧ Mnemonic.shape .addi = .registerImmediate ∧ Mnemonic.shape .lw = .memory ∧ ∀ t ∈ [[0x78#8,
      0x33#8, 0x32#8], [0x78#8, 0x31#8], [0x79#8], [0x37#8], [0x34#8, 0x30#8, 0x39#8, 0x36#8], [0x30#8, 0x78#8,
      0x31#8, 0x30#8, 0x30#8, 0x30#8, 0x30#8, 0x30#8]], t ≠ [] ∧ ∀ x ∈ t, x ∉ [chSpace, chComma, chOpen, chClose,
      chNul] := by decide

/-- A host with the texts `addi x1, x0, 7`, `foo x1 x2` and `sw x1, 0(x0)`. -/
def sample : State :=
  { State.reset with
    program := [
      [0x61#8, 0x64#8, 0x64#8, 0x69#8, 0x20#8, 0x78#8, 0x31#8, 0x2C#8, 0x20#8, 0x78#8, 0x30#8, 0x2C#8, 0x20#8,
        0x37#8],
      [0x66#8, 0x6F#8, 0x6F#8, 0x20#8, 0x78#8, 0x31#8, 0x20#8, 0x78#8, 0x32#8],
      [0x73#8, 0x77#8, 0x20#8, 0x78#8, 0x31#8, 0x2C#8, 0x20#8, 0x30#8, 0x28#8, 0x78#8, 0x30#8, 0x29#8]] }

/-- Also for `StoresNeverChangeInstructions`. -/
theorem witness_StepKeepsTheInvariant : sample.Inv ∧ ∃ t, step sample = .next t := ⟨by decide, _, rfl⟩

/-- The step is the store of a word. -/
theorem witness_StepsOnlyPut :
    let s : State := { sample with seq := 2 }
    s.Inv ∧ 4#32 ∉ (stepStores s).map Prod.fst ∧ ∃ t, step s = .next t ∧ t.memory.size = 4 := ⟨by decide, by decide,
      _, rfl, by decide⟩

theorem witness_CreateSessionNeedsPositiveBucketCount :
    (0#32 : Word).toInt ≤ 0 ∧ (0x80000000#32 : Word).toInt ≤ 0 ∧ 1 ≤ (1#32 : Word).toInt ∧ 1 ≤ (0x7FFFFFFF#32 :
      Word).toInt := by decide

theorem witness_HostReadsRegistersAndCells :
    ((-1 : Int) < 0 ∨ 31 < (-1 : Int)) ∧ ((32 : Int) < 0 ∨ 31 < (32 : Int)) := by decide

theorem witness_StepRunsTheDecodedInstruction :
    (∃ text, sample.program[sample.seq]? = some text ∧ decode text = .instr (.addi 1 0 7#32)) ∧ (∃ text,
      sample.program[1]? = some text ∧ decode text = .skip) ∧ (∃ text, ({ sample with program := [[]] } :
      State).program[0]? = some text ∧ decode text = .refuse .noSeparator) ∧ sample.program[3]? = none := ⟨⟨_, rfl,
      by decide⟩, ⟨_, rfl, by decide⟩, ⟨_, rfl, by decide⟩, rfl⟩

theorem witness_TableWordIsRunNext : decodeTableWord 40 0x6164646920 = some (.addi 0 0 0#32) := by decide

theorem witness_AdmittedProgramRunsInOrder : sample.admitted = true ∧ sample.seq ≤ sample.program.length := by decide

/-- Two different states that agree on the registers the instruction reads. -/
theorem witness_RegistersReadAndWrittenPerShape :
    decode [0x66#8, 0x6F#8, 0x6F#8, 0x20#8, 0x78#8, 0x31#8, 0x20#8, 0x78#8, 0x32#8] = .skip ∧ let s := start [(1,
      6#32), (2, 8#32), (3, 1#32)]
    let s' := start [(1, 6#32), (2, 8#32), (4, 9#32)]
    s ≠ s' ∧ s.memory = s'.memory ∧ ∀ r, (ports (.add 3 1 2)).read1 = some r ∨ (ports (.add 3 1 2)).read2 = some r →
      s.readReg r = s'.readReg r := by decide

theorem witness_ShiftsUseTheLowFiveBits :
    (0 ≤ (0#32 : Word).toInt ∧ (0#32 : Word).toInt ≤ 31) ∧ (0 ≤ (31#32 : Word).toInt ∧ (31#32 : Word).toInt ≤ 31) :=
      by decide

/-- For `AddiWraps`, `AndiOriXoriAreBitwise` and `SltiComparesSigned`. -/
theorem witness_register_immediate_numbers :
    ((-2048 : Int) ≤ -2048 ∧ (-2048 : Int) ≤ 4095) ∧ ((-2048 : Int) ≤ 4095 ∧ (4095 : Int) ≤ 4095) := by decide

theorem witness_LuiPlacesTheUpperBits :
    ((0 : Int) ≤ 0 ∧ (0 : Int) ≤ 0xFFFFF) ∧ ((0 : Int) ≤ 0xFFFFF ∧ (0xFFFFF : Int) ≤ 0xFFFFF) ∧ ((-(2 ^ 31) : Int) ≤
      -1 ∧ (-1 : Int) ≤ 2 ^ 31 - 1 ∧ (-1 : Int) < 0) ∧ ((-(2 ^ 31) : Int) ≤ 0x100000 ∧ (0x100000 : Int) ≤ 2 ^ 31 - 1
      ∧ 0xFFFFF < (0x100000 : Int)) := by decide

theorem witness_ResetState : 1 ≤ (1#32 : Word).toInt ∧ 1 ≤ (0x7FFFFFFF#32 : Word).toInt := by decide

theorem witness_EffectiveAddressWraps :
    (0 < 4 ∧ 3 < 4) ∧ byteAddress 0x7FFFFFFF#32 3 = byteAddress 0x7FFFFFFF#32 3 := by decide

/-- An address outside a word that wraps around the top of the signed range. -/
theorem witness_StoreWordWritesFourBytes :
    ∀ i < 4, (0x7FFFFFFE#32 : Word) ≠ byteAddress (effectiveAddress (start [(2, 0x7FFFFFFF#32)]) 2 0#32) i := by
      decide

theorem witness_StoreByteWritesOneByte : (5#32 : Word) ≠ effectiveAddress (start [(2, 3#32)]) 2 1#32 := by decide

theorem witness_MixedSizeAccessesCompose :
    ∃ t, exec (.sw 1 0#32 2) (start [(1, 0x12345678#32), (2, 100#32)]) = .next t ∧ effectiveAddress t 2 3#32 =
      byteAddress (effectiveAddress (start [(1, 0x12345678#32), (2, 100#32)]) 2 0#32) 3 := ⟨_, rfl, by decide⟩

theorem witness_OnlyMemoryShapesTouchTheStore :
    Instr.shape (.add 1 2 3) ≠ .memory ∧ Instr.shape (.slti 1 2 3#32) ≠ .memory ∧ Instr.shape (.lui 1 2#32) ≠ .memory
      := by decide

theorem witness_BytesWidenAndNarrow : byteOf 0x12345678#32 0 = 0x78#8 ∧ byteOf 0x12345678#32 3 = 0x12#8 := by decide

theorem witness_PutOverwritesOrInserts :
    (Memory.empty.put 7#32 0#8).present 7#32 = true ∧ Memory.empty.present 7#32 = false ∧ (8#32 : Word) ≠ 7#32 := by
      decide

theorem witness_CanonicalMemoriesAreEqual :
    let m := (Memory.empty.put 7#32 0#8).put 3#32 1#8
    let m' := ((Memory.empty.put 3#32 5#8).put 7#32 0#8).put 3#32 1#8
    m.wf ∧ m'.wf ∧ m = m' := by decide

theorem witness_PutsAtDifferentKeysCommute : (Memory.empty.put 7#32 1#8).wf ∧ (3#32 : Word) ≠ 4#32 := by decide

theorem witness_BucketHashFoldsTheSign :
    0 < 1 ∧ 0 ≤ (0#32 : Word).toInt ∧ 0 ≤ (0x7FFFFFFF#32 : Word).toInt := by decide

/-- Key 21 shares the one bucket with key 5 and is absent, so no node of its bucket list has its key. -/
theorem witness_BucketMissReadsZero :
    let b := (BucketStore.init 1).put 5#32 1#8
    b.chain 21#32 = [(5#32, 1#8)] ∧ (5#32 : Word) ≠ 21#32 := by decide

/-- Key 5 has a node and key 21 none; that the store keeps its invariant is in `witness_BucketStoreKeepsKeysUnique`. -/
theorem witness_BucketScanOverwritesOrPrepends :
    let b := (BucketStore.init 1).put 5#32 1#8
    b.chain 5#32 = [(5#32, 1#8)] ∧ b.chain 21#32 = [(5#32, 1#8)] ∧ 1 ≠ bucketHash b.buckets.length 5#32 := by decide

/-- The invariant of the bucket store holds of a store with a node; also for
`BucketScanOverwritesOrPrepends`. -/
theorem witness_BucketStoreKeepsKeysUnique :
    0 < ((BucketStore.init 1).put 5#32 1#8).buckets.length ∧ ((BucketStore.init 1).put 5#32 1#8).wf := by
  generalize hs : (BucketStore.init 1).put 5#32 1#8 = b
  have hb : b.buckets = [[(5#32, 1#8)]] := by rw [← hs]; decide
  have hlen : b.buckets.length = 1 := by rw [hb]; rfl
  refine ⟨by omega, fun j n hn => ?_, fun j => ?_⟩
  · rw [hb] at hn
    cases j with
    | zero => rw [hlen]; exact Nat.mod_one _
    | succ j => exact absurd hn (by simp)
  · rw [hb]
    cases j <;> simp

theorem witness_BucketStoreRefinesTheMap : 0 < 1 := by decide

end Sys2Proof.Tests
end

section
/-! What each of the sixteen writing instructions does: it completes and leaves one value in its destination, as one
write of the state before it. -/
namespace Sys2Proof.Machine

variable (s : State) (rd rs1 rs2 : RegIndex) (imm offset : Word)

/-! ### Register-Register (40_register_register.md R111 to R118) -/

@[simp] theorem exec_add : exec (.add rd rs1 rs2) s = .next (s.writeReg rd (s.readReg rs1 + s.readReg rs2)) := rfl

@[simp] theorem exec_sub : exec (.sub rd rs1 rs2) s = .next (s.writeReg rd (s.readReg rs1 - s.readReg rs2)) := rfl

@[simp] theorem exec_and : exec (.and rd rs1 rs2) s = .next (s.writeReg rd (s.readReg rs1 &&& s.readReg rs2)) := rfl

@[simp] theorem exec_or : exec (.or rd rs1 rs2) s = .next (s.writeReg rd (s.readReg rs1 ||| s.readReg rs2)) := rfl

@[simp] theorem exec_xor : exec (.xor rd rs1 rs2) s = .next (s.writeReg rd (s.readReg rs1 ^^^ s.readReg rs2)) := rfl

@[simp] theorem exec_slt :
    exec (.slt rd rs1 rs2) s = .next (s.writeReg rd (boolWord ((s.readReg rs1).slt (s.readReg rs2)))) := rfl

@[simp] theorem exec_sll :
    exec (.sll rd rs1 rs2) s = .next (s.writeReg rd (s.readReg rs1 <<< shiftAmount (s.readReg rs2))) := rfl

@[simp] theorem exec_sra :
    exec (.sra rd rs1 rs2) s = .next (s.writeReg rd ((s.readReg rs1).sshiftRight (shiftAmount (s.readReg rs2)))) := rfl

/-! ### Register-Immediate (41_register_immediate.md R130 to R134) -/

@[simp] theorem exec_addi : exec (.addi rd rs1 imm) s = .next (s.writeReg rd (s.readReg rs1 + imm)) := rfl

@[simp] theorem exec_andi : exec (.andi rd rs1 imm) s = .next (s.writeReg rd (s.readReg rs1 &&& imm)) := rfl

@[simp] theorem exec_ori : exec (.ori rd rs1 imm) s = .next (s.writeReg rd (s.readReg rs1 ||| imm)) := rfl

@[simp] theorem exec_xori : exec (.xori rd rs1 imm) s = .next (s.writeReg rd (s.readReg rs1 ^^^ imm)) := rfl

@[simp] theorem exec_slti :
    exec (.slti rd rs1 imm) s = .next (s.writeReg rd (boolWord ((s.readReg rs1).slt imm))) := rfl

/-! ### Loads and `lui` (42_memory_access.md R140, R141; 43_upper_immediate.md R160) -/

@[simp] theorem exec_lw :
    exec (.lw rd offset rs1) s = .next (s.writeReg rd (s.memory.readWord (effectiveAddress s rs1 offset))) := rfl

@[simp] theorem exec_lb :
    exec (.lb rd offset rs1) s =
      .next (s.writeReg rd (signExtendByte (s.memory.readByte (effectiveAddress s rs1 offset)))) := rfl

@[simp] theorem exec_lui : exec (.lui rd imm) s = .next (s.writeReg rd (imm <<< 12)) := rfl

end Sys2Proof.Machine
end

section
/-! Register 0 is an ordinary register (10_state.md R22). -/
namespace Sys2Proof.Machine

/-- An instruction form that, for every destination, writes there one value computed before the write leaves that value
in every destination: `writeReg` has no case for `x0`. -/
theorem same_value_of_exec_eq_writeReg {s : State} {i : RegIndex → Instr} {v : Word}
    (h : ∀ rd, exec (i rd) s = .next (s.writeReg rd v)) :
    ∃ v, ∀ rd, ∃ t, exec (i rd) s = .next t ∧ t.readReg rd = v :=
  ⟨v, fun rd => ⟨s.writeReg rd v, h rd, s.readReg_writeReg_self rd v⟩⟩

/-- R22's example, `addi x0, x0, 5` from reset and then `add x1, x0, x0`: the second instruction reads the 5 that the
first wrote to `x0`. -/
theorem addi_x0_then_add_reads_x0 :
    ∃ t u, exec (.addi 0 0 5#32) State.reset = .next t ∧ t.readReg 0 = 5#32 ∧ exec (.add 1 0 0) t = .next u ∧
      u.readReg 1 = 10#32 := by
  refine ⟨_, _, exec_addi State.reset 0 0 5#32, ?x0, exec_add _ 1 0 0, ?x1⟩
  case x0 => simp
  case x1 => simp

/-- Settles O26: each of the sixteen forms writes a value that does not mention the destination. -/
theorem registerZeroIsOrdinary : Obligations.RegisterZeroIsOrdinary := by
  refine ⟨State.reset_readReg 0, fun s rs1 rs2 imm => ?_, addi_x0_then_add_reads_x0⟩
  exact ⟨same_value_of_exec_eq_writeReg (exec_add s · rs1 rs2), same_value_of_exec_eq_writeReg (exec_sub s · rs1 rs2),
    same_value_of_exec_eq_writeReg (exec_and s · rs1 rs2), same_value_of_exec_eq_writeReg (exec_or s · rs1 rs2),
    same_value_of_exec_eq_writeReg (exec_xor s · rs1 rs2), same_value_of_exec_eq_writeReg (exec_slt s · rs1 rs2),
    same_value_of_exec_eq_writeReg (exec_sll s · rs1 rs2), same_value_of_exec_eq_writeReg (exec_sra s · rs1 rs2),
    same_value_of_exec_eq_writeReg (exec_addi s · rs1 imm), same_value_of_exec_eq_writeReg (exec_andi s · rs1 imm),
    same_value_of_exec_eq_writeReg (exec_ori s · rs1 imm), same_value_of_exec_eq_writeReg (exec_xori s · rs1 imm),
    same_value_of_exec_eq_writeReg (exec_slti s · rs1 imm), same_value_of_exec_eq_writeReg (exec_lw s · rs1 imm),
    same_value_of_exec_eq_writeReg (exec_lb s · rs1 imm), same_value_of_exec_eq_writeReg (exec_lui s · imm)⟩

end Sys2Proof.Machine
end

section
/-! The scan of one bucket list by `get` and `put` (20_memory.md R47, R48). The invariant of 10_state.md R33 makes the
first node with a key its only one, so what the scan does at the first match is said of every node of the list. -/
namespace Sys2Proof.Machine

/-! ### A bucket list whose keys are unique -/

/-- No later node has the key of the first one. -/
theorem key_ne_of_mem_tail {n m : Node} {ns : List Node} (hnd : ((n :: ns).map Prod.fst).Nodup) (hm : m ∈ ns) :
    m.1 ≠ n.1 := fun e => (List.nodup_cons.mp hnd).1 (e ▸ List.mem_map_of_mem hm)

/-- The scan finds a node wherever in the list it stands. -/
theorem chainLookup_eq_some_of_mem {ns : List Node} (hnd : (ns.map Prod.fst).Nodup) {key : Word} {w : Byte}
    (h : (key, w) ∈ ns) : chainLookup ns key = some w := by
  induction ns with
  | nil => cases h
  | cons n ns ih =>
    rw [chainLookup]
    obtain rfl | h := List.mem_cons.mp h
    · exact if_pos rfl
    · rw [if_neg (key_ne_of_mem_tail hnd h).symm, ih hnd.of_cons h]

/-- Overwriting the first match replaces the value of the key's node and keeps every other node and the order. -/
theorem chainOverwrite_eq_map {ns : List Node} (hnd : (ns.map Prod.fst).Nodup) (key : Word) (v : Byte) :
    chainOverwrite ns key v = ns.map fun n => if n.1 = key then (key, v) else n := by
  induction ns with
  | nil => rfl
  | cons n ns ih =>
    rw [chainOverwrite, List.map_cons]
    obtain rfl | hk := eq_or_ne n.1 key
    · have htail : ∀ m ∈ ns, (if m.1 = n.1 then (n.1, v) else m) = m := fun m hm =>
        if_neg (key_ne_of_mem_tail hnd hm)
      rw [if_pos rfl, if_pos rfl, List.map_congr_left htail, List.map_id']
    · rw [if_neg hk, if_neg hk, ih hnd.of_cons]

/-! ### The bucket of a key -/

namespace BucketStore

variable {b : BucketStore} {key : Word} {w : Byte}

theorem nodup_keys_chain (hwf : b.wf) (key : Word) : ((b.chain key).map Prod.fst).Nodup := hwf.2 _

theorem get_of_lookup_eq_none (h : chainLookup (b.chain key) key = none) : b.get key = 0#8 := by
  rw [get, h]; rfl

theorem get_of_lookup_eq_some (h : chainLookup (b.chain key) key = some w) : b.get key = w := by
  rw [get, h]; rfl

/-- After a `put` that finds the key, its bucket list is the old one with the value overwritten. -/
theorem chain_put_of_lookup_eq_some (hpos : 0 < b.buckets.length) (h : chainLookup (b.chain key) key = some w)
    (v : Byte) : (b.put key v).chain key = chainOverwrite (b.chain key) key v := by
  rw [b.chain_put hpos, if_pos rfl, h]

/-- After a `put` that does not find the key, its bucket list is the old one behind a new node. -/
theorem chain_put_of_lookup_eq_none (hpos : 0 < b.buckets.length) (h : chainLookup (b.chain key) key = none)
    (v : Byte) : (b.put key v).chain key = (key, v) :: b.chain key := by
  rw [b.chain_put hpos, if_pos rfl, h]

/-- A `put` leaves every bucket but the key's own. -/
theorem getD_put_of_ne_hash (hpos : 0 < b.buckets.length) (v : Byte) {j : Nat}
    (hj : j ≠ bucketHash b.buckets.length key) : (b.put key v).buckets.getD j [] = b.buckets.getD j [] := by
  rw [b.getD_put hpos, if_neg hj]

end BucketStore

/-! ### The two obligations -/

/-- Settles O51: the scan ends without a match, and an absent key reads as the unlisted byte. -/
theorem bucketMissReadsZero : Obligations.BucketMissReadsZero :=
  fun _ _ hmiss => BucketStore.get_of_lookup_eq_none (chainLookup_eq_none.mpr hmiss)

/-- Settles O52: under the invariant the first match of the scan is the key's only node, so what `put` does to that match
is the map over the whole list, and `get` reads the value of any node of the key. -/
theorem bucketScanOverwritesOrPrepends : Obligations.BucketScanOverwritesOrPrepends := by
  intro b key v hpos hwf
  have hnd := BucketStore.nodup_keys_chain hwf key
  refine ⟨?found, ?missing, fun j => BucketStore.getD_put_of_ne_hash hpos v, b.put_length key v, fun w hw => ?get⟩
  case found =>
    rintro ⟨⟨_, w⟩, hmem, rfl⟩
    have hlookup := chainLookup_eq_some_of_mem hnd hmem
    rw [BucketStore.chain_put_of_lookup_eq_some hpos hlookup, chainOverwrite_eq_map hnd]
  case missing =>
    intro hmiss
    exact BucketStore.chain_put_of_lookup_eq_none hpos (chainLookup_eq_none.mpr hmiss) v
  case get => exact BucketStore.get_of_lookup_eq_some (chainLookup_eq_some_of_mem hnd hw)

end Sys2Proof.Machine
end

section
/-! The Register-Register family (40_register_register.md R111 to R116): each instruction is read from its customary text
and, in every state, writes its one result to the destination and leaves everything else as it was. -/
namespace Sys2Proof.Machine

/-! ### What the family shares -/

theorem chNul_notMem_registerRegisterOperands (rd rs1 rs2 : RegIndex) :
    chNul ∉ registerRegisterOperands rd rs1 rs2 := chNul_notMem_operandText (.add rd rs1 rs2)

/-- A mnemonic whose operands are read in the Register-Register format is decoded from its customary text. -/
theorem decode_registerRegister {m : Mnemonic} {mk : RegIndex → RegIndex → RegIndex → Instr}
    (hformat : ∀ fs, decodeOperands m fs = registerRegisterFormat mk fs) (rd rs1 rs2 : RegIndex) :
    decode (mnemonicText m ++ [chSpace] ++ registerRegisterOperands rd rs1 rs2) = .instr (mk rd rs1 rs2) :=
  decode_of_operands (chNul_notMem_registerRegisterOperands rd rs1 rs2)
    ((hformat _).trans (registerRegisterFormat_operands mk rd rs1 rs2))

/-- An instruction whose meaning is one register write completes with that write's frame. -/
theorem completes_of_exec_eq_writeReg {i : Instr} {s : State} {rd : RegIndex} {v : Word}
    (h : exec i s = .next (s.writeReg rd v)) : ∃ t, exec i s = .next t ∧ s.WritesOnly t rd v :=
  ⟨s.writeReg rd v, h, s.writesOnly_writeReg rd v⟩

/-! ### The obligations -/

/-- Settles O28: word addition and subtraction are the signed sum and difference, wrapped. -/
theorem addAndSubWrap : Obligations.AddAndSubWrap := by
  intro rd rs1 rs2 s
  refine ⟨⟨decode_registerRegister (m := .add) (fun _ => rfl) rd rs1 rs2, ?add⟩,
    decode_registerRegister (m := .sub) (fun _ => rfl) rd rs1 rs2, ?sub⟩
  case add =>
    rw [← add_eq_wrap32]
    exact completes_of_exec_eq_writeReg (exec_add s rd rs1 rs2)
  case sub =>
    rw [← sub_eq_wrap32]
    exact completes_of_exec_eq_writeReg (exec_sub s rd rs1 rs2)

/-- Settles O29: a bit of the word operation is the Boolean operation on the sources' bits. -/
theorem andOrXorAreBitwise : Obligations.AndOrXorAreBitwise := by
  intro rd rs1 rs2 s bitwise
  refine ⟨⟨decode_registerRegister (m := .and) (fun _ => rfl) rd rs1 rs2, ?and⟩,
    ⟨decode_registerRegister (m := .or) (fun _ => rfl) rd rs1 rs2, ?or⟩,
    decode_registerRegister (m := .xor) (fun _ => rfl) rd rs1 rs2, ?xor⟩
  case and =>
    exact ⟨_, _, exec_and s rd rs1 rs2, s.writesOnly_writeReg rd _, fun _ _ => BitVec.getLsbD_and⟩
  case or =>
    exact ⟨_, _, exec_or s rd rs1 rs2, s.writesOnly_writeReg rd _, fun _ _ => BitVec.getLsbD_or⟩
  case xor =>
    exact ⟨_, _, exec_xor s rd rs1 rs2, s.writesOnly_writeReg rd _, fun _ _ => BitVec.getLsbD_xor⟩

/-- Settles O30: the word that `slt` writes is the signed comparison as 1 or 0. -/
theorem sltComparesSigned : Obligations.SltComparesSigned := by
  intro rd rs1 rs2 s
  refine ⟨decode_registerRegister (m := .slt) (fun _ => rfl) rd rs1 rs2, ?slt⟩
  rw [← boolWord_slt]
  exact completes_of_exec_eq_writeReg (exec_slt s rd rs1 rs2)

end Sys2Proof.Machine
end

section
/-! The Register-Immediate family (41_register_immediate.md R130 to R134): each instruction is read from its customary
text, the number taken as a 12-bit two's-complement value, and, in every state and for every immediate, writes its one
result to the destination and leaves everything else as it was. -/
namespace Sys2Proof.Machine

/-! ### The immediate is a 12-bit sign extension (30_encoding.md R84) -/

/-- The mask that the decoder ORs in covers bits 31 to 12 and no other. -/
theorem getLsbD_signMask : ∀ k < 32, (0xFFFFF000#32 : Word).getLsbD k = decide (12 ≤ k) := by decide

theorem getLsbD_signExtend_setWidth12 (w : Word) {k : Nat} (hk : k < 32) :
    ((w.setWidth 12).signExtend 32).getLsbD k = if k < 12 then w.getLsbD k else w.getLsbD 11 := by
  rw [BitVec.getLsbD_signExtend, BitVec.msb_eq_getLsbD_last]
  split <;> simp [*]

theorem signExtend12_of_bit11 {w : Word} (h : w.getLsbD 11 = true) :
    signExtend12 w = (w.setWidth 12).signExtend 32 := by
  refine BitVec.eq_of_getLsbD_eq fun k hk => ?_
  rw [signExtend12, if_pos h, BitVec.getLsbD_or, getLsbD_signMask k hk, getLsbD_signExtend_setWidth12 w hk]
  by_cases h12 : k < 12
  · rw [if_pos h12, decide_eq_false (not_le.mpr h12), Bool.or_false]
  · rw [if_neg h12, decide_eq_true (not_lt.mp h12), Bool.or_true, h]

theorem signExtend12_of_lt {w : Word} (h : w.toNat < 2 ^ 12) : signExtend12 w = (w.setWidth 12).signExtend 32 := by
  by_cases h11 : w.getLsbD 11 = true
  · exact signExtend12_of_bit11 h11
  · refine BitVec.eq_of_getLsbD_eq fun k hk => ?_
    rw [signExtend12, if_neg h11, getLsbD_signExtend_setWidth12 w hk]
    split
    case isTrue => rfl
    case isFalse h12 => rw [getLsbD_of_toNat_lt h (not_lt.mp h12), Bool.eq_false_of_not_eq_true h11]

/-- The word of `-(n + 1)` is the complement of the word of `n`, so its bit 11 is set while `n` is below 2048. -/
theorem wrap32_negSucc_bit11 {n : Nat} (h : n < 2 ^ 11) : (wrap32 (Int.negSucc n)).getLsbD 11 = true := by
  have hlt : (BitVec.ofNat 32 n).toNat < 2 ^ 11 := by rw [BitVec.toNat_ofNat]; omega
  rw [wrap32, BitVec.ofInt_negSucc_eq_not_ofNat, BitVec.getLsbD_not, getLsbD_of_toNat_lt hlt le_rfl]
  rfl

/-- On the whole range that `Imm12` admits, filling from bit 11 by the OR is the sign extension of the low 12 bits: a
negative number has bit 11 set, any other has nothing above bit 11. -/
theorem imm12_of_mem_range {v : Int} (hlo : -2048 ≤ v) (hhi : v ≤ 4095) :
    imm12 v = .ok (((wrap32 v).setWidth 12).signExtend 32) := by
  rw [imm12, if_pos ⟨hlo, hhi⟩]
  congr 1
  cases v with
  | ofNat n =>
    have hn : n ≤ 4095 := Int.ofNat_le.mp hhi
    have hlt : (wrap32 n).toNat < 2 ^ 12 := by rw [wrap32, BitVec.ofInt_natCast, BitVec.toNat_ofNat]; omega
    exact signExtend12_of_lt hlt
  | negSucc n => exact signExtend12_of_bit11 (wrap32_negSucc_bit11 (by omega))

/-! ### What the family shares -/

/-- A mnemonic whose operands are read in the Register-Immediate format is decoded from its customary text, for every
number that `Imm12` admits. -/
theorem decode_registerImmediate {m : Mnemonic} {mk : RegIndex → RegIndex → Word → Instr}
    (hformat : ∀ fs, decodeOperands m fs = registerImmediateFormat mk fs) (rd rs1 : RegIndex) {v : Int}
    (hlo : -2048 ≤ v) (hhi : v ≤ 4095) :
    decode (mnemonicText m ++ [chSpace] ++ (regText rd ++ (commaSpace ++ (regText rs1 ++ (commaSpace ++ intText v))))) =
      .instr (mk rd rs1 (((wrap32 v).setWidth 12).signExtend 32)) := by
  have hnul : chNul ∉ regText rd ++ (commaSpace ++ (regText rs1 ++ (commaSpace ++ intText v))) := by
    have h := chNul_notMem_operandText (.addi rd rs1 (wrap32 v))
    rwa [operandText, registerImmediateOperands, toInt_wrap32 (by omega) (by omega)] at h
  refine decode_of_operands hnul ?_
  rw [hformat, registerImmediateFormat_intText mk rd rs1 (by omega) (by omega), imm12_of_mem_range hlo hhi]
  rfl

/-! ### The obligations -/

/-- Settles O32: word addition is the signed sum, wrapped. -/
theorem addiWraps : Obligations.AddiWraps := by
  intro rd rs1 s
  refine ⟨fun v => decode_registerImmediate (m := .addi) (fun _ => rfl) rd rs1, fun imm => ?_⟩
  rw [← add_eq_wrap32]
  exact completes_of_exec_eq_writeReg (exec_addi s rd rs1 imm)

/-- Settles O33: a bit of the word operation is the Boolean operation on the bits of the source and the immediate. -/
theorem andiOriXoriAreBitwise : Obligations.AndiOriXoriAreBitwise := by
  intro rd rs1 s bitwise operands imm12Bits
  refine ⟨fun v hlo hhi => ?decode, fun imm => ⟨?andi, ?ori, ?xori⟩⟩
  case decode =>
    exact ⟨decode_registerImmediate (m := .andi) (fun _ => rfl) rd rs1 hlo hhi,
      decode_registerImmediate (m := .ori) (fun _ => rfl) rd rs1 hlo hhi,
      decode_registerImmediate (m := .xori) (fun _ => rfl) rd rs1 hlo hhi⟩
  case andi => exact ⟨_, _, exec_andi s rd rs1 imm, s.writesOnly_writeReg rd _, fun _ _ => BitVec.getLsbD_and⟩
  case ori => exact ⟨_, _, exec_ori s rd rs1 imm, s.writesOnly_writeReg rd _, fun _ _ => BitVec.getLsbD_or⟩
  case xori => exact ⟨_, _, exec_xori s rd rs1 imm, s.writesOnly_writeReg rd _, fun _ _ => BitVec.getLsbD_xor⟩

/-- Settles O34: the word that `slti` writes is the signed comparison with the immediate as 1 or 0. -/
theorem sltiComparesSigned : Obligations.SltiComparesSigned := by
  intro rd rs1 s
  refine ⟨fun v => decode_registerImmediate (m := .slti) (fun _ => rfl) rd rs1, fun imm => ?_⟩
  rw [← boolWord_slt]
  exact completes_of_exec_eq_writeReg (exec_slti s rd rs1 imm)

end Sys2Proof.Machine
end

section
/-! The Unknown shape: a text whose mnemonic is none of the eighteen is skipped (44_unknown.md R165; 30_encoding.md
R75). -/
namespace Sys2Proof.Machine

/-- Every recognised mnemonic belongs to one of the four sets (30_encoding.md R74). -/
theorem mnemonicShape_ne_unknown (m : Mnemonic) : m.shape ≠ .unknown := by cases m <;> decide

theorem classify_eq_unknown_iff {mn : Text} : classify mn = .unknown ↔ mnemonicOf mn = none := by
  unfold classify
  cases mnemonicOf mn with
  | none => simp
  | some m => simp [mnemonicShape_ne_unknown m]

/-- The separating `SP` adds no NUL to a text. -/
theorem chNul_notMem_split {mn rem : Text} (h0 : chNul ∉ mn ++ rem) : chNul ∉ mn ++ chSpace :: rem := by
  have hn : chNul ≠ chSpace := by decide
  simpa [hn] using h0

/-- The decoder answers an Unknown mnemonic before it looks at the remainder (R75). -/
theorem decode_unknown {mn rem : Text} (hne : mn ≠ []) (hs : chSpace ∉ mn) (h0 : chNul ∉ mn ++ rem)
    (hu : classify mn = .unknown) : decode (mn ++ chSpace :: rem) = .skip := by
  rw [decode_split mn rem hne hs (chNul_notMem_split h0), classify_eq_unknown_iff.mp hu]

theorem execute_of_decode_skip {text : Text} (h : decode text = .skip) (s : State) :
    execute text s = .next (advance s) := by
  rw [execute, h, execSkip]

/-- Settles O6: such a text decodes to a skip, and a skip only moves the host's index on. -/
theorem unknownMnemonicIsSkipped : Obligations.UnknownMnemonicIsSkipped :=
  fun _ _ s hne hs h0 hu => execute_of_decode_skip (decode_unknown hne hs h0 hu) s

end Sys2Proof.Machine
end

section
/-! Decode and encode agree: each format reads back the customary spelling (30_encoding.md sections 2 to 10). -/
namespace Sys2Proof.Machine

theorem toInt_word_range (w : Word) : -2147483648 ≤ w.toInt ∧ w.toInt ≤ 2147483647 :=
  ⟨w.le_toInt, Int.le_of_lt_add_one w.toInt_lt⟩

/-- The Register-Immediate format reads back what the encoder writes of a sign-extended 12-bit immediate. -/
theorem registerImmediateFormat_operands (mk : RegIndex → RegIndex → Word → Instr) (rd rs1 : RegIndex) {imm : Word}
    (h : fitsImm12 imm = true) :
    registerImmediateFormat mk (fields (clean (registerImmediateOperands rd rs1 imm))) = .ok (mk rd rs1 imm) := by
  have hrange := toInt_word_range imm
  rw [registerImmediateOperands, registerImmediateFormat_intText mk rd rs1 hrange.1 hrange.2, imm12_toInt h]
  rfl

/-- The Upper-Immediate format reads back what the encoder writes of a 20-bit immediate. -/
theorem upperImmediateFormat_operands (mk : RegIndex → Word → Instr) (rd : RegIndex) {imm : Word}
    (h : fitsImm20 imm = true) :
    upperImmediateFormat mk (fields (clean (upperImmediateOperands rd imm))) = .ok (mk rd imm) := by
  have hrange := toInt_word_range imm
  rw [upperImmediateOperands, upperImmediateFormat_intText mk rd hrange.1 hrange.2, imm20_toInt h]
  rfl

/-- Every mnemonic reads its operands in the format that the encoder writes them in. -/
theorem decodeOperands_operandText {i : Instr} (h : i.wellFormed = true) :
    decodeOperands i.mnemonic (fields (clean (operandText i))) = .ok i := by
  cases i with
  | add rd rs1 rs2 => exact registerRegisterFormat_operands .add rd rs1 rs2
  | sub rd rs1 rs2 => exact registerRegisterFormat_operands .sub rd rs1 rs2
  | and rd rs1 rs2 => exact registerRegisterFormat_operands .and rd rs1 rs2
  | or rd rs1 rs2 => exact registerRegisterFormat_operands .or rd rs1 rs2
  | xor rd rs1 rs2 => exact registerRegisterFormat_operands .xor rd rs1 rs2
  | slt rd rs1 rs2 => exact registerRegisterFormat_operands .slt rd rs1 rs2
  | sll rd rs1 rs2 => exact registerRegisterFormat_operands .sll rd rs1 rs2
  | sra rd rs1 rs2 => exact registerRegisterFormat_operands .sra rd rs1 rs2
  | addi rd rs1 imm => exact registerImmediateFormat_operands .addi rd rs1 h
  | andi rd rs1 imm => exact registerImmediateFormat_operands .andi rd rs1 h
  | ori rd rs1 imm => exact registerImmediateFormat_operands .ori rd rs1 h
  | xori rd rs1 imm => exact registerImmediateFormat_operands .xori rd rs1 h
  | slti rd rs1 imm => exact registerImmediateFormat_operands .slti rd rs1 h
  | lw rd offset rs1 => exact memoryFormat_operands .lw rd offset rs1
  | lb rd offset rs1 => exact memoryFormat_operands .lb rd offset rs1
  | sw rd offset rs1 => exact memoryFormat_operands .sw rd offset rs1
  | sb rd offset rs1 => exact memoryFormat_operands .sb rd offset rs1
  | lui rd imm => exact upperImmediateFormat_operands .lui rd h

/-- Settles O2: the text splits after the mnemonic, and each format reads its own operand list back. -/
theorem decodeOfEncodeIsTheInstruction : Obligations.DecodeOfEncodeIsTheInstruction := by
  intro i h
  rw [encode, decode_mnemonic i.mnemonic _ (chNul_notMem_operandText i), decodeOperands_operandText h]
  rfl

end Sys2Proof.Machine
end

section
/-! Every step is a sequence of `put`s on the store and keeps its canonical form (10_state.md section 6). -/
namespace Sys2Proof.Machine

/-- A sequence of `put`s, first to last. -/
def Memory.putAll (m : Memory) (ps : List (Word × Byte)) : Memory := ps.foldl (fun m p => m.put p.1 p.2) m

@[simp] theorem Memory.putAll_nil (m : Memory) : m.putAll [] = m := rfl

@[simp] theorem Memory.putAll_cons (m : Memory) (p : Word × Byte) (ps : List (Word × Byte)) :
    m.putAll (p :: ps) = (m.put p.1 p.2).putAll ps := rfl

theorem Memory.putAll_wf {m : Memory} (h : m.wf) (ps : List (Word × Byte)) : (m.putAll ps).wf := by
  induction ps generalizing m with
  | nil => exact h
  | cons p ps ih => exact ih (Memory.put_wf h p.1 p.2)

/-- The bytes that an instruction stores do not depend on the host's index. -/
theorem storesOf_advance (i : Instr) (s : State) : storesOf i (advance s) = storesOf i s := by
  cases i <;> rfl

/-- A step's memory is the old one with the step's bytes put. -/
theorem step_memory {s t : State} (h : step s = .next t) : t.memory = s.memory.putAll (stepStores s) := by
  obtain ⟨hnext, rfl⟩ | ⟨text, hnext, hdecode, rfl⟩ | ⟨text, i, hnext, hdecode, hexec⟩ := step_cases h
  · simp [stepStores, hnext]
  · simp [stepStores, hnext, hdecode]
  · rw [exec_memory hexec, storesOf_advance, advance_memory]
    simp [stepStores, hnext, hdecode, Memory.putAll]

/-- Settles O17: a step changes memory by `put`s alone, and each of them keeps the canonical form. -/
theorem stepKeepsTheInvariant : Obligations.StepKeepsTheInvariant := by
  intro s t hinv hstep
  rw [State.Inv, step_memory hstep]
  exact Memory.putAll_wf hinv _

end Sys2Proof.Machine
end

section
/-! The immediates (30_encoding.md section 6), and what an instruction as the decoder's answer says about the text
(30_encoding.md sections 2, 3 and 6). -/
namespace Sys2Proof.Machine

/-! ### Immediates -/

/-- The 12-bit sign extension of a number is the number of the same class modulo 2^12 in -2048 to 2047. -/
theorem toInt_signExtend_setWidth12 {v : Int} (hlo : -2048 ≤ v) (hhi : v ≤ 4095) :
    (((wrap32 v).setWidth 12).signExtend 32).toInt = if v ≤ 2047 then v else v - 4096 := by
  rw [BitVec.toInt_signExtend_of_le (by decide), BitVec.toInt_setWidth, wrap32, BitVec.toNat_ofInt, Int.bmod_def]
  split <;> split <;> omega

theorem imm12_of_notMem_range {v : Int} (h : v < -2048 ∨ 4095 < v) : imm12 v = .error .immediateOutOfRange :=
  if_neg (by omega)

/-- Settles O12: the OR that fills from bit 11 is the sign extension of the low 12 bits. -/
theorem imm12IsTwelveBitSignExtension : Obligations.Imm12IsTwelveBitSignExtension := fun _ =>
  ⟨fun ⟨hlo, hhi⟩ => ⟨_, imm12_of_mem_range hlo hhi, rfl, toInt_signExtend_setWidth12 hlo hhi⟩, imm12_of_notMem_range⟩

theorem imm20_of_mem_range {v : Int} (hlo : 0 ≤ v) (hhi : v ≤ 0xFFFFF) : imm20 v = .ok (wrap32 v) := if_pos ⟨hlo, hhi⟩

theorem imm20_of_notMem_range {v : Int} (h : v < 0 ∨ 0xFFFFF < v) : imm20 v = .error .immediateOutOfRange :=
  if_neg (by omega)

theorem toNat_wrap32 {v : Int} (hlo : 0 ≤ v) (hhi : v ≤ 4294967295) : ((wrap32 v).toNat : Int) = v := by
  rw [wrap32, BitVec.toNat_ofInt]
  omega

/-- Settles O13: a number in range is the value of its own 32-bit pattern. -/
theorem offsetAndUpperImmediateAreTakenAsWritten : Obligations.OffsetAndUpperImmediateAreTakenAsWritten := by
  refine ⟨fun v hlo hhi => ?offset, fun v hlo hhi => ?upper, fun v => imm20_of_notMem_range⟩
  case offset => exact ⟨wrap32 v, rfl, toInt_wrap32 hlo hhi⟩
  case upper => exact ⟨wrap32 v, imm20_of_mem_range hlo hhi, toNat_wrap32 hlo (by omega)⟩

theorem fitsImm12_of_imm12 {v : Int} {imm : Word} (h : imm12 v = .ok imm) : fitsImm12 imm = true := by
  by_cases hv : -2048 ≤ v ∧ v ≤ 4095
  · have hint := toInt_signExtend_setWidth12 hv.1 hv.2
    rw [imm12_of_mem_range hv.1 hv.2, Except.ok.injEq] at h
    rw [h] at hint
    simp only [fitsImm12, Bool.and_eq_true, decide_eq_true_eq]
    split at hint <;> omega
  · rw [imm12_of_notMem_range (by omega)] at h
    cases h

theorem fitsImm20_of_imm20 {v : Int} {imm : Word} (h : imm20 v = .ok imm) : fitsImm20 imm = true := by
  by_cases hv : 0 ≤ v ∧ v ≤ 0xFFFFF
  · have hnat := toNat_wrap32 hv.1 (by omega)
    rw [imm20_of_mem_range hv.1 hv.2, Except.ok.injEq] at h
    rw [h] at hnat
    simp only [fitsImm20, decide_eq_true_eq]
    omega
  · rw [imm20_of_notMem_range (by omega)] at h
    cases h

/-! ### The operand format of each mnemonic (30_encoding.md R78) -/

/-- Each mnemonic reads its operands in the format of its set, and builds its own instruction, which is well formed where
its immediate is. -/
theorem decodeOperands_cases (m : Mnemonic) :
    (m.shape = .registerRegister ∧ ∃ mk, decodeOperands m = registerRegisterFormat mk ∧
      ∀ rd rs1 rs2, (mk rd rs1 rs2).mnemonic = m ∧ (mk rd rs1 rs2).wellFormed = true) ∨
    (m.shape = .registerImmediate ∧ ∃ mk, decodeOperands m = registerImmediateFormat mk ∧
      ∀ rd rs1 imm, (mk rd rs1 imm).mnemonic = m ∧ (mk rd rs1 imm).wellFormed = fitsImm12 imm) ∨
    (m.shape = .memory ∧ ∃ mk, decodeOperands m = memoryFormat mk ∧
      ∀ rd offset rs1, (mk rd offset rs1).mnemonic = m ∧ (mk rd offset rs1).wellFormed = true) ∨
    (m.shape = .upperImmediate ∧ ∃ mk, decodeOperands m = upperImmediateFormat mk ∧
      ∀ rd imm, (mk rd imm).mnemonic = m ∧ (mk rd imm).wellFormed = fitsImm20 imm) := by
  cases m with
  | add => exact .inl ⟨rfl, .add, rfl, fun _ _ _ => ⟨rfl, rfl⟩⟩
  | sub => exact .inl ⟨rfl, .sub, rfl, fun _ _ _ => ⟨rfl, rfl⟩⟩
  | and => exact .inl ⟨rfl, .and, rfl, fun _ _ _ => ⟨rfl, rfl⟩⟩
  | or => exact .inl ⟨rfl, .or, rfl, fun _ _ _ => ⟨rfl, rfl⟩⟩
  | xor => exact .inl ⟨rfl, .xor, rfl, fun _ _ _ => ⟨rfl, rfl⟩⟩
  | slt => exact .inl ⟨rfl, .slt, rfl, fun _ _ _ => ⟨rfl, rfl⟩⟩
  | sll => exact .inl ⟨rfl, .sll, rfl, fun _ _ _ => ⟨rfl, rfl⟩⟩
  | sra => exact .inl ⟨rfl, .sra, rfl, fun _ _ _ => ⟨rfl, rfl⟩⟩
  | addi => exact .inr (.inl ⟨rfl, .addi, rfl, fun _ _ _ => ⟨rfl, rfl⟩⟩)
  | andi => exact .inr (.inl ⟨rfl, .andi, rfl, fun _ _ _ => ⟨rfl, rfl⟩⟩)
  | ori => exact .inr (.inl ⟨rfl, .ori, rfl, fun _ _ _ => ⟨rfl, rfl⟩⟩)
  | xori => exact .inr (.inl ⟨rfl, .xori, rfl, fun _ _ _ => ⟨rfl, rfl⟩⟩)
  | slti => exact .inr (.inl ⟨rfl, .slti, rfl, fun _ _ _ => ⟨rfl, rfl⟩⟩)
  | lw => exact .inr (.inr (.inl ⟨rfl, .lw, rfl, fun _ _ _ => ⟨rfl, rfl⟩⟩))
  | lb => exact .inr (.inr (.inl ⟨rfl, .lb, rfl, fun _ _ _ => ⟨rfl, rfl⟩⟩))
  | sw => exact .inr (.inr (.inl ⟨rfl, .sw, rfl, fun _ _ _ => ⟨rfl, rfl⟩⟩))
  | sb => exact .inr (.inr (.inl ⟨rfl, .sb, rfl, fun _ _ _ => ⟨rfl, rfl⟩⟩))
  | lui => exact .inr (.inr (.inr ⟨rfl, .lui, rfl, fun _ _ => ⟨rfl, rfl⟩⟩))

/-! ### What a format can answer -/

theorem registerRegisterFormat_ok {mk : RegIndex → RegIndex → RegIndex → Instr} {fs : List Text} {i : Instr}
    (h : registerRegisterFormat mk fs = .ok i) : ∃ rd rs1 rs2, i = mk rd rs1 rs2 := by
  obtain ⟨_, -, h⟩ := exceptBind_ok h
  obtain ⟨rd, -, h⟩ := exceptBind_ok h
  obtain ⟨rs1, -, h⟩ := exceptBind_ok h
  obtain ⟨rs2, -, h⟩ := exceptBind_ok h
  exact ⟨rd, rs1, rs2, (Except.ok.inj h).symm⟩

theorem registerImmediateFormat_ok {mk : RegIndex → RegIndex → Word → Instr} {fs : List Text} {i : Instr}
    (h : registerImmediateFormat mk fs = .ok i) : ∃ rd rs1 imm, i = mk rd rs1 imm ∧ fitsImm12 imm = true := by
  obtain ⟨_, -, h⟩ := exceptBind_ok h
  obtain ⟨rd, -, h⟩ := exceptBind_ok h
  obtain ⟨rs1, -, h⟩ := exceptBind_ok h
  obtain ⟨v, -, h⟩ := exceptBind_ok h
  obtain ⟨imm, himm, h⟩ := exceptBind_ok h
  exact ⟨rd, rs1, imm, (Except.ok.inj h).symm, fitsImm12_of_imm12 himm⟩

theorem memoryFormat_ok {mk : RegIndex → Word → RegIndex → Instr} {fs : List Text} {i : Instr}
    (h : memoryFormat mk fs = .ok i) : ∃ rd offset rs1, i = mk rd offset rs1 := by
  obtain ⟨_, -, h⟩ := exceptBind_ok h
  obtain ⟨rd, -, h⟩ := exceptBind_ok h
  obtain ⟨v, -, h⟩ := exceptBind_ok h
  obtain ⟨offset, -, h⟩ := exceptBind_ok h
  obtain ⟨rs1, -, h⟩ := exceptBind_ok h
  exact ⟨rd, offset, rs1, (Except.ok.inj h).symm⟩

theorem upperImmediateFormat_ok {mk : RegIndex → Word → Instr} {fs : List Text} {i : Instr}
    (h : upperImmediateFormat mk fs = .ok i) : ∃ rd imm, i = mk rd imm ∧ fitsImm20 imm = true := by
  obtain ⟨_, -, h⟩ := exceptBind_ok h
  obtain ⟨rd, -, h⟩ := exceptBind_ok h
  obtain ⟨v, -, h⟩ := exceptBind_ok h
  obtain ⟨imm, himm, h⟩ := exceptBind_ok h
  exact ⟨rd, imm, (Except.ok.inj h).symm, fitsImm20_of_imm20 himm⟩

/-- Operands that are read give an instruction of the mnemonic, with its immediate in range. -/
theorem decodeOperands_ok {m : Mnemonic} {fs : List Text} {i : Instr} (h : decodeOperands m fs = .ok i) :
    i.mnemonic = m ∧ i.wellFormed = true := by
  obtain ⟨-, mk, hformat, hmk⟩ | ⟨-, mk, hformat, hmk⟩ | ⟨-, mk, hformat, hmk⟩ | ⟨-, mk, hformat, hmk⟩ :=
    decodeOperands_cases m
  all_goals rw [hformat] at h
  · obtain ⟨rd, rs1, rs2, rfl⟩ := registerRegisterFormat_ok h
    exact hmk rd rs1 rs2
  · obtain ⟨rd, rs1, imm, rfl, himm⟩ := registerImmediateFormat_ok h
    exact himm ▸ hmk rd rs1 imm
  · obtain ⟨rd, offset, rs1, rfl⟩ := memoryFormat_ok h
    exact hmk rd offset rs1
  · obtain ⟨rd, imm, rfl, himm⟩ := upperImmediateFormat_ok h
    exact himm ▸ hmk rd imm

/-! ### The decoded instruction and its text -/

/-- Settles O3: the formats pass on only immediates that the range checks let through. -/
theorem decodedInstructionIsWellFormed : Obligations.DecodedInstructionIsWellFormed := by
  intro text i h
  obtain ⟨m, rem, -, -, hops⟩ := decode_instr h
  exact (decodeOperands_ok hops).2

theorem mnemonicText_injective : Function.Injective mnemonicText := fun m m' h =>
  Option.some.inj (by rw [← mnemonicOf_mnemonicText m, h, mnemonicOf_mnemonicText])

/-- Of two texts that begin alike, the parts before the first `SP` are equal. -/
theorem eq_of_append_space_isPrefix {a b : Text} (ha : chSpace ∉ a) (hb : chSpace ∉ b)
    (h : (a ++ [chSpace]) <+: (b ++ [chSpace])) : a = b := by
  obtain ⟨rest, hrest⟩ := h
  have hsplit := congrArg splitAtSpace hrest
  rw [List.append_assoc, List.singleton_append, splitAtSpace_append a rest ha, splitAtSpace_append b [] hb] at hsplit
  exact congrArg Prod.fst (Option.some.inj hsplit)

/-- Settles O4: the text splits at its first `SP`, and the split of a pattern determines its mnemonic. -/
theorem instructionSelectedByMnemonicPattern : Obligations.InstructionSelectedByMnemonicPattern := by
  refine ⟨fun text i h => ?selected, fun m m' h => ?unique⟩
  case selected =>
    obtain ⟨m, rem, rfl, -, hops⟩ := decode_instr h
    exact ⟨rem, by rw [(decodeOperands_ok hops).1]; simp⟩
  case unique =>
    exact mnemonicText_injective (eq_of_append_space_isPrefix (chSpace_notMem_mnemonicText m)
      (chSpace_notMem_mnemonicText m') h)

end Sys2Proof.Machine
end

section
/-! The classifier (30_encoding.md R73, R74): membership in the lists that the set of a mnemonic gives. -/
namespace Sys2Proof.Machine

/-- The mnemonics of one set, as texts, in the order of the table. -/
def textsOfShape (shape : Shape) : List Text :=
  (allMnemonics.filter fun m => decide (m.shape = shape)).map mnemonicText

theorem mem_textsOfShape {mn : Text} {shape : Shape} :
    mn ∈ textsOfShape shape ↔ ∃ m : Mnemonic, m.shape = shape ∧ mnemonicText m = mn := by
  simp [textsOfShape, mem_allMnemonics]

theorem classify_mnemonicText (m : Mnemonic) : classify (mnemonicText m) = m.shape := by
  rw [classify, mnemonicOf_mnemonicText]

theorem classify_eq_iff_mem {shape : Shape} (hshape : shape ≠ .unknown) (mn : Text) :
    classify mn = shape ↔ mn ∈ textsOfShape shape := by
  rw [mem_textsOfShape]
  constructor
  · intro h
    cases hm : mnemonicOf mn with
    | none => exact absurd (h.symm.trans (classify_eq_unknown_iff.mpr hm)) hshape
    | some m =>
      obtain rfl := mnemonicOf_some hm
      exact ⟨m, (classify_mnemonicText m).symm.trans h, rfl⟩
  · rintro ⟨m, rfl, rfl⟩
    exact classify_mnemonicText m

/-- A mnemonic is Unknown exactly when it is classified in none of the four sets. -/
theorem eq_unknown_iff (shape : Shape) : shape = .unknown ↔ shape ≠ .registerRegister ∧
    shape ≠ .registerImmediate ∧ shape ≠ .memory ∧ shape ≠ .upperImmediate := by
  cases shape <;> decide

/-- Settles O5: each written-out list is the list of texts of its set. -/
theorem classifierIsExactMembership : Obligations.ClassifierIsExactMembership := by
  intro mn registerRegister registerImmediate memory upperImmediate
  have hrr : classify mn = .registerRegister ↔ mn ∈ registerRegister := classify_eq_iff_mem (by decide) mn
  have hri : classify mn = .registerImmediate ↔ mn ∈ registerImmediate := classify_eq_iff_mem (by decide) mn
  have hmem : classify mn = .memory ↔ mn ∈ memory := classify_eq_iff_mem (by decide) mn
  have hup : classify mn = .upperImmediate ↔ mn ∈ upperImmediate := classify_eq_iff_mem (by decide) mn
  refine ⟨hrr, hri, hmem, hup, ?_⟩
  rw [eq_unknown_iff, ← hrr, ← hri, ← hmem, ← hup]

end Sys2Proof.Machine
end

section
/-! Texts outside the grammar, cleaning, and the checks of the operand slots in their order (30_encoding.md sections 2 and
4; 60_exceptions.md section 3). -/
namespace Sys2Proof.Machine

/-! ### Texts outside the grammar (92_eei_decisions.md D3, D20) -/

theorem decode_of_nul {text : Text} (h : chNul ∈ text) : decode text = .refuse .nulCharacter := if_pos h

theorem decode_of_noSpace {text : Text} (h0 : chNul ∉ text) (hs : chSpace ∉ text) :
    decode text = .refuse .noSeparator := by
  rw [decode, if_neg h0, splitAtSpace_none.mpr hs]

theorem decode_of_leadingSpace {text : Text} (h0 : chNul ∉ text) :
    decode (chSpace :: text) = .refuse .emptyMnemonic := by
  have h0' : chNul ∉ chSpace :: text := chNul_notMem_split (mn := []) h0
  rw [decode, if_neg h0']
  rfl

theorem execute_of_decode_refuse {text : Text} {r : DecodeRefusal} (h : decode text = .refuse r) (s : State) :
    execute text s = .refused (.decode r) := by
  rw [execute, h]

/-- Settles O7: the decoder's three refusals before it looks at a mnemonic, passed on by `execute`. -/
theorem textsOutsideTheGrammarAreRefused : Obligations.TextsOutsideTheGrammarAreRefused := fun _ s =>
  ⟨fun h => execute_of_decode_refuse (decode_of_nul h) s,
    fun h0 hs => execute_of_decode_refuse (decode_of_noSpace h0 hs) s,
    fun h0 => execute_of_decode_refuse (decode_of_leadingSpace h0) s⟩

/-- Settles O1: the five texts, by evaluation of the decoder. -/
theorem writtenTextsDecode : Obligations.WrittenTextsDecode := by
  unfold Obligations.WrittenTextsDecode
  decide

/-! ### Cleaning (30_encoding.md R76) -/

/-- After the mnemonic, the decoder sees of a text no more than its cleaned remainder and whether it holds a NUL. -/
theorem decode_congr_clean {mn rem rem' : Text} (hs : chSpace ∉ mn) (h0 : chNul ∈ rem ↔ chNul ∈ rem')
    (hclean : clean rem = clean rem') : decode (mn ++ chSpace :: rem) = decode (mn ++ chSpace :: rem') := by
  have hiff : chNul ∈ mn ++ chSpace :: rem ↔ chNul ∈ mn ++ chSpace :: rem' := by simp [h0]
  by_cases hnul : chNul ∈ mn ++ chSpace :: rem
  · rw [decode_of_nul hnul, decode_of_nul (hiff.mp hnul)]
  · have hnul' := mt hiff.mpr hnul
    obtain rfl | hne := eq_or_ne mn []
    · rw [List.nil_append, decode_of_leadingSpace fun h => hnul (by simp [h]), List.nil_append,
        decode_of_leadingSpace fun h => hnul' (by simp [h])]
    · rw [decode_split mn rem hne hs hnul, decode_split mn rem' hne hs hnul', hclean]

theorem clean_filter_space (rem : Text) : clean (rem.filter fun c => decide (c ≠ chSpace)) = clean rem := by
  rw [clean, List.filter_filter]
  simp [clean]

theorem clean_separator_cons {c : Char8} (hc : c ∈ [chComma, chOpen, chClose]) (b : Text) :
    clean (c :: b) = chSpace :: clean b := by
  have hone : ∀ c ∈ [chComma, chOpen, chClose], clean [c] = [chSpace] := by decide
  rw [← List.singleton_append, clean_append, hone c hc, List.singleton_append]

theorem separator_ne_chNul {c : Char8} (hc : c ∈ [chComma, chOpen, chClose]) : chNul ≠ c := by
  rintro rfl
  exact absurd hc (by decide)

/-- Settles O8: cleaning deletes every `SP` and maps the three separators to one character. -/
theorem spacesVanishAndSeparatorsAreAlike : Obligations.SpacesVanishAndSeparatorsAreAlike := by
  refine ⟨fun mn rem hs => ?spaces, fun mn a b c c' hs hc hc' => ?separators⟩
  case spaces =>
    have hn : chNul ≠ chSpace := by decide
    exact decode_congr_clean hs (by simp [hn]) (clean_filter_space rem).symm
  case separators =>
    refine decode_congr_clean hs ?_ ?_
    · simp [separator_ne_chNul hc, separator_ne_chNul hc']
    · rw [clean_append, clean_append, clean_separator_cons hc, clean_separator_cons hc']

/-! ### The number of operand fields (30_encoding.md R77) -/

/-- Cleaning leaves a text without separators without any `SP`. -/
theorem plain_clean_of_noSeparator {rem : Text} (h : ∀ c ∈ rem, c ∉ [chComma, chOpen, chClose]) :
    ∀ c ∈ clean rem, plainChar c = true := by
  intro c hc
  simp only [clean, List.mem_map, List.mem_filter, decide_eq_true_eq] at hc
  obtain ⟨d, ⟨hd, hdspace⟩, rfl⟩ := hc
  have hsep := h d hd
  simp only [List.mem_cons, List.not_mem_nil, or_false, not_or] at hsep
  simp [separatorToSpace, plainChar, hsep, hdspace]

/-- A wrong count for both shapes of operand list is reported whatever the mnemonic. -/
theorem decodeOperands_of_slots_error (m : Mnemonic) {fs : List Text} {r : DecodeRefusal}
    (h3 : slots3 fs = .error r) (h2 : slots2 fs = .error r) : decodeOperands m fs = .error r := by
  obtain ⟨-, mk, hformat, -⟩ | ⟨-, mk, hformat, -⟩ | ⟨-, mk, hformat, -⟩ | ⟨-, mk, hformat, -⟩ :=
    decodeOperands_cases m
  · rw [hformat, registerRegisterFormat, h3]; rfl
  · rw [hformat, registerImmediateFormat, h3]; rfl
  · rw [hformat, memoryFormat, h3]; rfl
  · rw [hformat, upperImmediateFormat, h2]; rfl

/-- An operand that no other character touches: not empty, no space, no separator and no NUL. -/
def IsToken (t : Text) : Prop := t ≠ [] ∧ ∀ x ∈ t, x ∉ [chSpace, chComma, chOpen, chClose, chNul]

section
variable {t a b c d : Text}

theorem IsToken.ne_nil (h : IsToken t) : t ≠ [] := h.1

theorem IsToken.plain (h : IsToken t) : ∀ x ∈ t, plainChar x = true := by
  intro x hx
  have hxs := h.2 x hx
  simp only [List.mem_cons, List.not_mem_nil, or_false, not_or] at hxs
  simp [plainChar, hxs]

theorem IsToken.chNul_notMem (h : IsToken t) : chNul ∉ t := fun hx => h.2 chNul hx (by decide)

theorem fields_token (h : IsToken t) : fields (clean t) = [t] := by
  rw [clean_plain h.plain, fields_plain h.plain]

/-- A comma ends a field. -/
theorem fields_token_comma (h : IsToken t) (rest : Text) :
    fields (clean (t ++ chComma :: rest)) = t :: fields (clean rest) := by
  rw [clean_plain_append _ h.plain, clean_separator_cons (by decide), fields_plain_space _ h.plain]

theorem chNul_notMem_token_comma (h : IsToken t) {rest : Text} (hrest : chNul ∉ rest) : chNul ∉ t ++ chComma :: rest := by
  have hn : chNul ≠ chComma := by decide
  simp [hn, h.chNul_notMem, hrest]

theorem decode_two_tokens (m : Mnemonic) (ha : IsToken a) (hb : IsToken b) :
    decode (mnemonicText m ++ chSpace :: (a ++ chComma :: b)) = Decoded.ofExcept (decodeOperands m [a, b]) := by
  rw [decode_mnemonic m _ (chNul_notMem_token_comma ha hb.chNul_notMem), fields_token_comma ha, fields_token hb]

theorem decode_three_tokens (m : Mnemonic) (ha : IsToken a) (hb : IsToken b) (hc : IsToken c) :
    decode (mnemonicText m ++ chSpace :: (a ++ chComma :: (b ++ chComma :: c))) =
      Decoded.ofExcept (decodeOperands m [a, b, c]) := by
  have hnul := chNul_notMem_token_comma ha (chNul_notMem_token_comma hb hc.chNul_notMem)
  rw [decode_mnemonic m _ hnul, fields_token_comma ha, fields_token_comma hb, fields_token hc]

theorem decode_four_tokens (m : Mnemonic) (ha : IsToken a) (hb : IsToken b) (hc : IsToken c) (hd : IsToken d) :
    decode (mnemonicText m ++ chSpace :: (a ++ chComma :: (b ++ chComma :: (c ++ chComma :: d)))) =
      Decoded.ofExcept (decodeOperands m [a, b, c, d]) := by
  have hnul :=
    chNul_notMem_token_comma ha (chNul_notMem_token_comma hb (chNul_notMem_token_comma hc hd.chNul_notMem))
  rw [decode_mnemonic m _ hnul, fields_token_comma ha, fields_token_comma hb, fields_token_comma hc, fields_token hd]

end

/-- Settles O9: one field, and four non-empty fields, are a wrong count for both shapes of operand list. -/
theorem wrongOperandCountIsRefused : Obligations.WrongOperandCountIsRefused := by
  refine ⟨fun m rem hsep h0 => ?one, fun m a b c d htokens => ?four⟩
  case one =>
    have hplain := plain_clean_of_noSeparator hsep
    rw [decode_mnemonic m rem h0, fields_plain hplain, decodeOperands_of_slots_error m rfl rfl]
    rfl
  case four =>
    have ha : IsToken a := htokens a (by simp)
    have hb : IsToken b := htokens b (by simp)
    have hc : IsToken c := htokens c (by simp)
    have hd : IsToken d := htokens d (by simp)
    have h3 : slots3 [a, b, c, d] = .error .operandCount := by simp [slots3, hd.ne_nil]
    have h2 : slots2 [a, b, c, d] = .error .operandCount := by simp [slots2, hc.ne_nil]
    rw [decode_four_tokens m ha hb hc hd, decodeOperands_of_slots_error m h3 h2]
    rfl

/-! ### The slots in their order (60_exceptions.md R177) -/

section
variable {a b c : Text}

theorem registerRegisterFormat_three (mk : RegIndex → RegIndex → RegIndex → Instr) (ha : IsToken a) (hb : IsToken b)
    (hc : IsToken c) : registerRegisterFormat mk [a, b, c] =
      (reg a).bind fun rd => (reg b).bind fun rs1 => (reg c).bind fun rs2 => .ok (mk rd rs1 rs2) := by
  rw [registerRegisterFormat, slots3_three ha.ne_nil hb.ne_nil hc.ne_nil]
  rfl

theorem registerImmediateFormat_three (mk : RegIndex → RegIndex → Word → Instr) (ha : IsToken a) (hb : IsToken b)
    (hc : IsToken c) : registerImmediateFormat mk [a, b, c] =
      (reg a).bind fun rd => (reg b).bind fun rs1 => (num c).bind fun v => (imm12 v).bind fun imm =>
        .ok (mk rd rs1 imm) := by
  rw [registerImmediateFormat, slots3_three ha.ne_nil hb.ne_nil hc.ne_nil]
  rfl

theorem memoryFormat_three (mk : RegIndex → Word → RegIndex → Instr) (ha : IsToken a) (hb : IsToken b)
    (hc : IsToken c) : memoryFormat mk [a, b, c] =
      (reg a).bind fun rd => (num b).bind fun v => (off32 v).bind fun offset => (reg c).bind fun rs1 =>
        .ok (mk rd offset rs1) := by
  rw [memoryFormat, slots3_three ha.ne_nil hb.ne_nil hc.ne_nil]
  rfl

theorem upperImmediateFormat_two (mk : RegIndex → Word → Instr) (ha : IsToken a) (hb : IsToken b) :
    upperImmediateFormat mk [a, b] =
      (reg a).bind fun rd => (num b).bind fun v => (imm20 v).bind fun imm => .ok (mk rd imm) := by
  rw [upperImmediateFormat, slots2_two ha.ne_nil hb.ne_nil]
  rfl

end

@[simp] theorem exceptBind_ok_eq {α β : Type} (x : α) (f : α → Except DecodeRefusal β) :
    (Except.ok x : Except DecodeRefusal α).bind f = f x := rfl

@[simp] theorem exceptBind_error_eq {α β : Type} (r : DecodeRefusal) (f : α → Except DecodeRefusal β) :
    (Except.error r : Except DecodeRefusal α).bind f = .error r := rfl

@[simp] theorem ofExcept_error (r : DecodeRefusal) : Decoded.ofExcept (.error r) = .refuse r := rfl

@[simp] theorem off32_eq (v : Int) : off32 v = .ok (wrap32 v) := rfl

/-- Settles O14: each format is a chain of checks in slot order, and the first that fails is the answer. -/
theorem firstFailingSlotIsReported : Obligations.FirstFailingSlotIsReported := by
  refine ⟨fun m a b c r ha hb hc hm => ?three, fun a b r ha hb => ?two⟩
  case three =>
    rw [decode_three_tokens m ha hb hc]
    obtain ⟨hshape, mk, hformat, -⟩ | ⟨hshape, mk, hformat, -⟩ | ⟨hshape, mk, hformat, -⟩ | ⟨hshape, -⟩ :=
      decodeOperands_cases m
    · rw [hformat, registerRegisterFormat_three mk ha hb hc, hshape]
      simp +contextual
    · rw [hformat, registerImmediateFormat_three mk ha hb hc, hshape]
      simp +contextual
    · rw [hformat, memoryFormat_three mk ha hb hc, hshape]
      simp +contextual
    · exact absurd hshape hm
  case two =>
    rw [decode_two_tokens .lui ha hb, decodeOperands, upperImmediateFormat_two .lui ha hb]
    simp +contextual

end Sys2Proof.Machine
end

section
/-! The grammar of register and number tokens (30_encoding.md section 5): what the digits of a base spell, and that the
decoder reads nothing else. -/
namespace Sys2Proof.Machine

/-! ### Digits -/

/-- The text of a decimal digit string. -/
def decimalDigits (ds : List (Fin 10)) : Text := ds.map fun d => BitVec.ofNat 8 (0x30 + d.val)

/-- The character of a hexadecimal digit, in upper case where the flag is set. -/
def hexChar (d : Fin 16 × Bool) : Char8 :=
  if d.1.val < 10 then BitVec.ofNat 8 (0x30 + d.1.val)
  else if d.2 then BitVec.ofNat 8 (0x41 + (d.1.val - 10)) else BitVec.ofNat 8 (0x61 + (d.1.val - 10))

/-- The text of a hexadecimal digit string. -/
def hexDigits (ds : List (Fin 16 × Bool)) : Text := ds.map hexChar

theorem decimalDigit_ofFin : ∀ d : Fin 10, decimalDigit (BitVec.ofNat 8 (0x30 + d.val)) = some d.val := by decide

theorem hexDigit_hexChar : ∀ d : Fin 16 × Bool, hexDigit (hexChar d) = some d.1.val := by decide

theorem exists_ofFin_of_decimalDigit {c : Char8} {n : Nat} (h : decimalDigit c = some n) :
    ∃ d : Fin 10, c = BitVec.ofNat 8 (0x30 + d.val) := by
  unfold decimalDigit at h
  split at h
  · rename_i hc
    refine ⟨⟨c.toNat - 0x30, by omega⟩, BitVec.eq_of_toNat_eq ?_⟩
    simp only [BitVec.toNat_ofNat]
    omega
  · cases h

theorem exists_hexChar_of_hexDigit {c : Char8} {n : Nat} (h : hexDigit c = some n) :
    ∃ d : Fin 16 × Bool, c = hexChar d := by
  have hlt := c.isLt
  unfold hexDigit at h
  split at h
  · refine ⟨(⟨c.toNat - 0x30, by omega⟩, false), BitVec.eq_of_toNat_eq ?_⟩
    rw [hexChar, if_pos (by simp only; omega), BitVec.toNat_ofNat]
    simp only
    omega
  · split at h
    · refine ⟨(⟨c.toNat - 0x41 + 10, by omega⟩, true), BitVec.eq_of_toNat_eq ?_⟩
      rw [hexChar, if_neg (by simp only; omega), if_pos rfl, BitVec.toNat_ofNat]
      simp only
      omega
    · split at h
      · refine ⟨(⟨c.toNat - 0x61 + 10, by omega⟩, false), BitVec.eq_of_toNat_eq ?_⟩
        rw [hexChar, if_neg (by simp only; omega), if_neg Bool.false_ne_true, BitVec.toNat_ofNat]
        simp only
        omega
      · cases h

/-- Digits are read only where every character is one. -/
theorem exists_map_of_digitsFrom {α : Type} {base : Nat} {digit : Char8 → Option Nat} {f : α → Char8}
    (hdigit : ∀ c n, digit c = some n → ∃ a, c = f a) {t : Text} {acc n : Nat}
    (h : digitsFrom base digit acc t = some n) : ∃ as : List α, t = as.map f := by
  induction t generalizing acc with
  | nil => exact ⟨[], rfl⟩
  | cons c cs ih =>
    rw [digitsFrom] at h
    cases hc : digit c with
    | none => rw [hc] at h; cases h
    | some d =>
      rw [hc] at h
      obtain ⟨a, rfl⟩ := hdigit c d hc
      obtain ⟨as, rfl⟩ := ih h
      exact ⟨a :: as, rfl⟩

theorem exists_map_of_digitsValue {α : Type} {base : Nat} {digit : Char8 → Option Nat} {f : α → Char8}
    (hdigit : ∀ c n, digit c = some n → ∃ a, c = f a) {t : Text} {n : Nat} (h : digitsValue base digit t = some n) :
    ∃ as : List α, as ≠ [] ∧ t = as.map f := by
  cases t with
  | nil => cases h
  | cons c cs =>
    obtain ⟨as, has⟩ := exists_map_of_digitsFrom hdigit h
    refine ⟨as, ?_, has⟩
    rintro rfl
    cases has

theorem digitsValue_decimalDigits {ds : List (Fin 10)} (h : ds ≠ []) :
    digitsValue 10 decimalDigit (decimalDigits ds) = some (Nat.ofDigits 10 (ds.reverse.map Fin.val)) := by
  rw [digitsValue_of_ne_nil _ _ (by simpa [decimalDigits] using h), decimalDigits,
    digitsFrom_map 10 decimalDigit _ Fin.val decimalDigit_ofFin]
  simp

theorem digitsValue_hexDigits {ds : List (Fin 16 × Bool)} (h : ds ≠ []) :
    digitsValue 16 hexDigit (hexDigits ds) = some (Nat.ofDigits 16 (ds.reverse.map fun d => d.1.val)) := by
  rw [digitsValue_of_ne_nil _ _ (by simpa [hexDigits] using h), hexDigits,
    digitsFrom_map 16 hexDigit hexChar (fun d => d.1.val) hexDigit_hexChar]
  simp

/-! ### Register tokens -/

/-- Settles O10: the digits after the `x` are read as the number they spell, and a token that is read is such a one. -/
theorem registerTokenReadsItsDecimalNumber : Obligations.RegisterTokenReadsItsDecimalNumber := by
  refine ⟨fun ds hds => ?digits, fun t ht => ?other⟩
  case digits =>
    have hvalue := digitsValue_decimalDigits hds
    rw [decimalDigits] at hvalue
    rw [reg, if_pos rfl, hvalue]
  case other =>
    cases t with
    | nil => rfl
    | cons c cs =>
      by_cases hc : c = chLowerX
      · cases hvalue : digitsValue 10 decimalDigit cs with
        | none => rw [reg, if_pos hc, hvalue]
        | some n =>
          obtain ⟨ds, hds, rfl⟩ := exists_map_of_digitsValue (fun _ _ => exists_ofFin_of_decimalDigit) hvalue
          exact absurd (by rw [hc]) (ht ds hds)
      · rw [reg, if_neg hc]

/-! ### Number tokens -/

/-- The optional sign of a number token. -/
def signText (neg : Bool) : Text := if neg then [chMinus] else []

/-- The integer that a sign and a magnitude stand for. -/
def signedValue (neg : Bool) (n : Nat) : Int := if neg then -(n : Int) else (n : Int)

/-- No decimal digit is an `x` or a `-`. -/
theorem ofFin_ne : ∀ d : Fin 10, (BitVec.ofNat 8 (0x30 + d.val) : Char8) ≠ chLowerX ∧
    (BitVec.ofNat 8 (0x30 + d.val) : Char8) ≠ chMinus := by decide

theorem magnitude_hex (t : Text) : magnitude (chZero :: chLowerX :: t) = digitsValue 16 hexDigit t := by
  rw [magnitude, if_pos ⟨rfl, rfl⟩]

/-- What is not marked as hexadecimal is read as decimal. -/
theorem magnitude_eq_decimal {t : Text} (h : ∀ ds, t ≠ chZero :: chLowerX :: ds) :
    magnitude t = digitsValue 10 decimalDigit t := by
  unfold magnitude
  split
  · rename_i z x ds
    exact if_neg fun ⟨hz, hx⟩ => h ds (by rw [hz, hx])
  · rfl

theorem decimalDigits_ne_hexMark (ds : List (Fin 10)) (t : Text) : decimalDigits ds ≠ chZero :: chLowerX :: t := by
  intro h
  have hmem : chLowerX ∈ decimalDigits ds := by rw [h]; simp
  obtain ⟨d, -, hd⟩ := List.mem_map.mp hmem
  exact (ofFin_ne d).1 hd

theorem magnitude_decimalDigits {ds : List (Fin 10)} (h : ds ≠ []) :
    magnitude (decimalDigits ds) = some (Nat.ofDigits 10 (ds.reverse.map Fin.val)) := by
  rw [magnitude_eq_decimal (decimalDigits_ne_hexMark ds), digitsValue_decimalDigits h]

theorem magnitude_hexDigits {ds : List (Fin 16 × Bool)} (h : ds ≠ []) :
    magnitude (chZero :: chLowerX :: hexDigits ds) = some (Nat.ofDigits 16 (ds.reverse.map fun d => d.1.val)) := by
  rw [magnitude_hex, digitsValue_hexDigits h]

/-- An unsigned number token is one of the two forms. -/
theorem magnitude_some {t : Text} {n : Nat} (h : magnitude t = some n) :
    (∃ ds : List (Fin 10), ds ≠ [] ∧ t = decimalDigits ds) ∨
      ∃ ds : List (Fin 16 × Bool), ds ≠ [] ∧ t = chZero :: chLowerX :: hexDigits ds := by
  by_cases ht : ∃ ds, t = chZero :: chLowerX :: ds
  · obtain ⟨cs, rfl⟩ := ht
    rw [magnitude_hex] at h
    obtain ⟨ds, hds, rfl⟩ := exists_map_of_digitsValue (fun _ _ => exists_hexChar_of_hexDigit) h
    exact .inr ⟨ds, hds, rfl⟩
  · rw [magnitude_eq_decimal (not_exists.mp ht)] at h
    exact .inl (exists_map_of_digitsValue (fun _ _ => exists_ofFin_of_decimalDigit) h)

/-- An unsigned number token does not begin with a `-`. -/
theorem magnitude_minus (cs : Text) : magnitude (chMinus :: cs) = none := by
  have hz : chMinus ≠ chZero := by decide
  rw [magnitude_eq_decimal fun ds h => hz (List.cons.inj h).1]
  rfl

/-- A sign before an unsigned number token gives its signed value. -/
theorem signedNumber_sign (neg : Bool) {t : Text} {n : Nat} (h : magnitude t = some n) :
    signedNumber (signText neg ++ t) = some (signedValue neg n) := by
  cases neg with
  | true => simp [signText, signedNumber, signedValue, h]
  | false =>
    cases t with
    | nil => cases h
    | cons c cs =>
      have hc : c ≠ chMinus := by rintro rfl; rw [magnitude_minus] at h; cases h
      simp [signText, signedNumber, signedValue, h, hc]

/-- A token that is read as a number is an optional sign and an unsigned number token. -/
theorem signedNumber_some {t : Text} {v : Int} (h : signedNumber t = some v) :
    ∃ neg t' n, t = signText neg ++ t' ∧ magnitude t' = some n := by
  cases t with
  | nil => cases h
  | cons c cs =>
    by_cases hc : c = chMinus
    · rw [signedNumber, if_pos hc, Option.map_eq_some_iff] at h
      obtain ⟨n, hn, -⟩ := h
      exact ⟨true, cs, n, by rw [hc]; rfl, hn⟩
    · rw [signedNumber, if_neg hc, Option.map_eq_some_iff] at h
      obtain ⟨n, hn, -⟩ := h
      exact ⟨false, c :: cs, n, rfl, hn⟩

/-- `Num` of a sign and an unsigned number token is its signed value with the 32-bit range check. -/
theorem num_sign (neg : Bool) {t : Text} {n : Nat} (h : magnitude t = some n) :
    num (signText neg ++ t) = if -(2 ^ 31) ≤ signedValue neg n ∧ signedValue neg n ≤ 2 ^ 31 - 1 then
      .ok (signedValue neg n) else .error .immediateOutOfRange := by
  rw [num, signedNumber_sign neg h]
  rfl

/-- Settles O11: both forms are read as the number they spell, and a token that is read is of one of the forms. -/
theorem numberTokenReadsItsSignedValue : Obligations.NumberTokenReadsItsSignedValue := by
  refine ⟨fun neg ds hds => ?decimal, fun neg ds hds => ?hexadecimal, fun t hdec hhex => ?other⟩
  case decimal => exact num_sign neg (magnitude_decimalDigits hds)
  case hexadecimal => exact num_sign neg (magnitude_hexDigits hds)
  case other =>
    cases hv : signedNumber t with
    | none => rw [num, hv]
    | some v =>
      obtain ⟨neg, t', n, rfl, hn⟩ := signedNumber_some hv
      obtain ⟨ds, hds, rfl⟩ | ⟨ds, hds, rfl⟩ := magnitude_some hn
      · exact absurd rfl (hdec neg ds hds)
      · exact absurd rfl (hhex neg ds hds)

end Sys2Proof.Machine
end

section
/-! The host's transactions, the state after reset, and the run of a program (00_scope.md section 5; 10_state.md sections
2 and 8; 60_exceptions.md section 5). -/
namespace Sys2Proof.Machine

/-! ### Reset and the host's reads -/

theorem createSession_of_pos {n : Word} (h : 1 ≤ n.toInt) : createSession n = .next State.reset :=
  if_neg (by omega)

theorem createSession_of_nonpos {n : Word} (h : n.toInt ≤ 0) : createSession n = .refused .bucketCount := if_pos h

@[simp] theorem Memory.lookup_empty (a : Word) : Memory.empty.lookup a = none := rfl

@[simp] theorem Memory.get_empty (a : Word) : Memory.empty.get a = 0#8 := rfl

theorem eq_nil_of_mem_init_buckets {n : Nat} {c : List Node} (h : c ∈ (BucketStore.init n).buckets) : c = [] :=
  List.eq_of_mem_replicate h

/-- Settles O15: each part of the reset state, and the hidden store of any count. -/
theorem resetState : Obligations.ResetState :=
  ⟨fun _ => createSession_of_pos, State.reset_readReg, fun a => ⟨Memory.lookup_empty a, Memory.get_empty a⟩, rfl, rfl,
    fun n => ⟨BucketStore.init_length n, fun _ => eq_nil_of_mem_init_buckets, rfl⟩⟩

/-- Settles O16: the reset state's store is the empty one. -/
theorem resetMeetsTheInvariant : Obligations.ResetMeetsTheInvariant := Memory.empty_wf

/-- Settles O18: the sign of the count decides. -/
theorem createSessionNeedsPositiveBucketCount : Obligations.CreateSessionNeedsPositiveBucketCount := fun _ =>
  ⟨createSession_of_nonpos, createSession_of_pos⟩

theorem readRegister_of_index (s : State) (r : RegIndex) : readRegister s (r.val : Int) = .ok (s.readReg r).toInt :=
  dif_pos (by omega)

theorem readRegister_of_notIndex (s : State) {n : Int} (h : n < 0 ∨ 31 < n) :
    readRegister s n = .error .badRegisterIndex := dif_neg (by omega)

/-- Settles O19: the index check of `read_register`, and that a cell is one byte. -/
theorem hostReadsRegistersAndCells : Obligations.HostReadsRegistersAndCells := fun s =>
  ⟨readRegister_of_index s, fun _ => readRegister_of_notIndex s,
    fun a => ⟨rfl, Nat.le_of_lt_succ (s.memory.get a).isLt⟩⟩

/-! ### One step -/

section
variable {s : State} {text : Text}

theorem execute_of_decode_instr {i : Instr} (h : decode text = .instr i) (s : State) :
    execute text s = exec i (advance s) := by
  rw [execute, h]

theorem step_of_nextText (h : nextText s = some text) : step s = execute text s := by
  rw [step, h]

theorem step_of_noText (h : nextText s = none) : step s = .next s := by
  rw [step, h, idle]

end

/-- Settles O20: a step is `execute` of the next text, as that text decodes. -/
theorem stepRunsTheDecodedInstruction : Obligations.StepRunsTheDecodedInstruction := fun s =>
  ⟨fun _ hnext =>
    ⟨fun _ h => (step_of_nextText hnext).trans (execute_of_decode_instr h s),
      fun h => (step_of_nextText hnext).trans (execute_of_decode_skip h s),
      fun _ h => (step_of_nextText hnext).trans (execute_of_decode_refuse h s)⟩,
    step_of_noText⟩

theorem decode_of_decodeTableWord {nbits w : Nat} {i : Instr} (h : decodeTableWord nbits w = some i) :
    decode (textOfTableWord nbits w) = .instr i := by
  unfold decodeTableWord at h
  cases hd : decode (textOfTableWord nbits w) <;> rw [hd] at h <;> cases h
  rfl

theorem nextText_withFetchWord (s : State) (nbits w : Nat) :
    nextText (s.withFetchWord nbits w) = some (textOfTableWord nbits w) := placeText_getElem? _ _ _

/-- Settles O22: the text of the word stands at the host's index. -/
theorem tableWordIsRunNext : Obligations.TableWordIsRunNext := fun s nbits w _ h =>
  ⟨(step_of_nextText (nextText_withFetchWord s nbits w)).trans
    (execute_of_decode_instr (decode_of_decodeTableWord h) _), rfl, rfl⟩

/-! ### Every instruction completes -/

theorem exec_completes (i : Instr) (s : State) : ∃ t, exec i s = .next t := by
  obtain ⟨_, _, -, h⟩ | ⟨_, _, _, -, -, h⟩ | ⟨_, _, _, -, -, h⟩ := exec_cases i s
  all_goals exact ⟨_, h⟩

/-- Settles O21: the three answers of the decoder, and every instruction completes. -/
theorem executeIsExecutedSkippedOrRefused : Obligations.ExecuteIsExecutedSkippedOrRefused := by
  refine ⟨exec_completes, fun text s => ?_⟩
  cases hd : decode text with
  | instr i =>
    obtain ⟨t, ht⟩ := exec_completes i (advance s)
    exact .inl ⟨i, t, rfl, (execute_of_decode_instr hd s).trans ht, ht⟩
  | skip => exact .inr (.inl ⟨rfl, execute_of_decode_skip hd s⟩)
  | refuse r => exact .inr (.inr ⟨r, rfl, execute_of_decode_refuse hd s⟩)

/-! ### What instructions and steps do to the host's list and index -/

/-- An instruction does the same whatever the host's list and index are. -/
theorem exec_withPlace {i : Instr} {s t : State} (h : exec i s = .next t) (p : List Text) (n : Nat) :
    exec i { s with program := p, seq := n } = .next { t with program := p, seq := n } := by
  cases i <;> cases h <;> rfl

/-- Settles O25: no meaning mentions the host's list or index. -/
theorem instructionsDoNotObserveTheHost : Obligations.InstructionsDoNotObserveTheHost := by
  intro i s p n
  obtain ⟨t, ht⟩ := exec_completes i s
  obtain ⟨hprogram, hseq⟩ := exec_keeps_host ht
  exact ⟨t, ht, hprogram, hseq, exec_withPlace ht p n⟩

theorem step_program {s t : State} (h : step s = .next t) : t.program = s.program := by
  obtain ⟨-, rfl⟩ | ⟨_, -, -, rfl⟩ | ⟨_, _, -, -, hexec⟩ := step_cases h
  · rfl
  · rfl
  · exact (exec_keeps_host hexec).1

/-- Settles O24: fetching reads the host's list, which no step changes. -/
theorem storesNeverChangeInstructions : Obligations.StoresNeverChangeInstructions :=
  ⟨fun _ _ => rfl, fun _ _ => step_program⟩

/-! ### The run of a program without refused texts -/

theorem execute_of_accepted {text : Text} (h : accepted text = true) (s : State) :
    ∃ t, execute text s = .next t ∧ t.program = s.program ∧ t.seq = s.seq + 1 := by
  unfold accepted at h
  cases hd : decode text with
  | skip => exact ⟨advance s, execute_of_decode_skip hd s, rfl, rfl⟩
  | refuse r => rw [hd] at h; cases h
  | instr i =>
    obtain ⟨t, ht⟩ := exec_completes i (advance s)
    exact ⟨t, (execute_of_decode_instr hd s).trans ht, exec_keeps_host ht⟩

/-- One step of such a program: the next text is run, or none is left. -/
theorem step_of_admitted {s : State} (hadm : s.admitted = true) (hseq : s.seq ≤ s.program.length) :
    ∃ t, step s = .next t ∧ t.program = s.program ∧ t.seq = min (s.seq + 1) s.program.length := by
  obtain hlt | heq := hseq.lt_or_eq
  · have hnext : nextText s = some s.program[s.seq] := List.getElem?_eq_getElem hlt
    have hacc : accepted s.program[s.seq] = true := List.all_eq_true.mp hadm _ (List.getElem_mem hlt)
    obtain ⟨t, ht, hprogram, htseq⟩ := execute_of_accepted hacc s
    exact ⟨t, (step_of_nextText hnext).trans ht, hprogram, by omega⟩
  · have hnext : nextText s = none := List.getElem?_eq_none heq.ge
    exact ⟨s, step_of_noText hnext, rfl, by omega⟩

theorem run_succ {s t : State} (h : step s = .next t) (n : Nat) :
    Host.Core.run core (n + 1) s = Host.Core.run core n t := by
  have hcore : core.step s = .next t := h
  simp only [Host.Core.run, hcore]

/-- Settles O23: by induction on the number of steps, from every state that the first step can reach. -/
theorem admittedProgramRunsInOrder : Obligations.AdmittedProgramRunsInOrder := by
  intro s n
  induction n generalizing s with
  | zero => exact fun _ hseq => ⟨s, rfl, rfl, by omega⟩
  | succ n ih =>
    intro hadm hseq
    obtain ⟨t, ht, hprogram, htseq⟩ := step_of_admitted hadm hseq
    have htadm : t.admitted = true := by rw [State.admitted, hprogram]; exact hadm
    obtain ⟨u, hu, huprogram, huseq⟩ := ih t htadm (by rw [hprogram]; omega)
    rw [hprogram] at huprogram huseq
    exact ⟨u, (run_succ ht n).trans hu, huprogram, by omega⟩

end Sys2Proof.Machine
end

section
/-! Which parts of the state an instruction depends on: the registers of its read selects (10_state.md section 1), and
memory only where its shape is Memory (00_scope.md section 5). -/
namespace Sys2Proof.Machine

/-! ### Shapes without memory -/

/-- Settles O43: each other shape writes one register with a value computed from registers. -/
theorem onlyMemoryShapesTouchTheStore : Obligations.OnlyMemoryShapesTouchTheStore := by
  intro i s m h
  cases i with
  | lw | lb | sw | sb => exact absurd rfl h
  | _ => exact ⟨_, rfl, rfl, rfl⟩

/-! ### The read and write selects -/

/-- The next states of an instruction in two states agree on memory and on the written register, and no other register
changes. -/
def AgreeAfter (i : Instr) (s s' : State) : Prop :=
  ∃ t t', exec i s = .next t ∧ exec i s' = .next t' ∧ t.memory = t'.memory ∧
    (∀ r, (ports i).write = some r → t.readReg r = t'.readReg r) ∧
    ∀ r, (ports i).write ≠ some r → t.readReg r = s.readReg r ∧ t'.readReg r = s'.readReg r

section
variable {i : Instr} {s s' : State} {rd rs1 rs2 : RegIndex}

theorem agreeAfter_of_writeReg {v : Word} (hwrite : (ports i).write = some rd)
    (h : exec i s = .next (s.writeReg rd v)) (h' : exec i s' = .next (s'.writeReg rd v))
    (hmem : s.memory = s'.memory) : AgreeAfter i s s' := by
  refine ⟨_, _, h, h', hmem, fun r hr => ?written, fun r hr => ?kept⟩
  case written =>
    obtain rfl := Option.some.inj (hwrite.symm.trans hr)
    rw [State.readReg_writeReg_self, State.readReg_writeReg_self]
  case kept =>
    have hne : r ≠ rd := fun e => hr (by rw [hwrite, e])
    exact ⟨s.readReg_writeReg_other v hne, s'.readReg_writeReg_other v hne⟩

theorem agreeAfter_of_store {m : Memory} (hwrite : (ports i).write = none)
    (h : exec i s = .next { s with memory := m }) (h' : exec i s' = .next { s' with memory := m }) :
    AgreeAfter i s s' :=
  ⟨_, _, h, h', rfl, fun r hr => absurd (hwrite.symm.trans hr) (by simp), fun _ _ => ⟨rfl, rfl⟩⟩

/-- The two states agree on the registers that the instruction reads. -/
def AgreeOnReads (i : Instr) (s s' : State) : Prop :=
  ∀ r, (ports i).read1 = some r ∨ (ports i).read2 = some r → s.readReg r = s'.readReg r

theorem agreeAfter_registerRegister (f : AluFn) (hports : ports i = portsRegisterRegister rd rs1 rs2)
    (hexec : ∀ s, exec i s = .next (aluRegister f rd rs1 rs2 s)) (hreads : AgreeOnReads i s s')
    (hmem : s.memory = s'.memory) : AgreeAfter i s s' := by
  have h1 : s.readReg rs1 = s'.readReg rs1 := hreads rs1 (.inl (by rw [hports]; rfl))
  have h2 : s.readReg rs2 = s'.readReg rs2 := hreads rs2 (.inr (by rw [hports]; rfl))
  refine agreeAfter_of_writeReg (by rw [hports]; rfl) (hexec s) ?_ hmem
  rw [h1, h2]
  exact hexec s'

theorem agreeAfter_registerImmediate (f : AluFn) {imm : Word} (hports : ports i = portsRegisterImmediate rd rs1)
    (hexec : ∀ s, exec i s = .next (aluImmediate f rd rs1 imm s)) (hreads : AgreeOnReads i s s')
    (hmem : s.memory = s'.memory) : AgreeAfter i s s' := by
  have h1 : s.readReg rs1 = s'.readReg rs1 := hreads rs1 (.inl (by rw [hports]; rfl))
  refine agreeAfter_of_writeReg (by rw [hports]; rfl) (hexec s) ?_ hmem
  rw [h1]
  exact hexec s'

theorem effectiveAddress_congr (h : s.readReg rs1 = s'.readReg rs1) (offset : Word) :
    effectiveAddress s rs1 offset = effectiveAddress s' rs1 offset := by
  rw [effectiveAddress, h, effectiveAddress]

/-- States that agree on what an instruction reads agree on what it writes. -/
theorem agreeAfter_of_agreeOnReads (hreads : AgreeOnReads i s s') (hmem : s.memory = s'.memory) :
    AgreeAfter i s s' := by
  cases i with
  | add => exact agreeAfter_registerRegister .add rfl (fun _ => rfl) hreads hmem
  | sub => exact agreeAfter_registerRegister .sub rfl (fun _ => rfl) hreads hmem
  | and => exact agreeAfter_registerRegister .and rfl (fun _ => rfl) hreads hmem
  | or => exact agreeAfter_registerRegister .or rfl (fun _ => rfl) hreads hmem
  | xor => exact agreeAfter_registerRegister .xor rfl (fun _ => rfl) hreads hmem
  | slt => exact agreeAfter_registerRegister .slt rfl (fun _ => rfl) hreads hmem
  | sll => exact agreeAfter_registerRegister .sll rfl (fun _ => rfl) hreads hmem
  | sra => exact agreeAfter_registerRegister .sra rfl (fun _ => rfl) hreads hmem
  | addi => exact agreeAfter_registerImmediate .add rfl (fun _ => rfl) hreads hmem
  | andi => exact agreeAfter_registerImmediate .and rfl (fun _ => rfl) hreads hmem
  | ori => exact agreeAfter_registerImmediate .or rfl (fun _ => rfl) hreads hmem
  | xori => exact agreeAfter_registerImmediate .xor rfl (fun _ => rfl) hreads hmem
  | slti => exact agreeAfter_registerImmediate .slt rfl (fun _ => rfl) hreads hmem
  | lw rd offset rs1 =>
    refine agreeAfter_of_writeReg rfl (exec_lw s rd rs1 offset) ?_ hmem
    rw [hmem, effectiveAddress_congr (hreads rs1 (.inl rfl)), exec_lw]
  | lb rd offset rs1 =>
    refine agreeAfter_of_writeReg rfl (exec_lb s rd rs1 offset) ?_ hmem
    rw [hmem, effectiveAddress_congr (hreads rs1 (.inl rfl)), exec_lb]
  | sw rd offset rs1 =>
    refine agreeAfter_of_store rfl rfl ?_
    rw [hmem, effectiveAddress_congr (hreads rs1 (.inl rfl)), hreads rd (.inr rfl)]
    rfl
  | sb rd offset rs1 =>
    refine agreeAfter_of_store rfl rfl ?_
    rw [hmem, effectiveAddress_congr (hreads rs1 (.inl rfl)), hreads rd (.inr rfl)]
    rfl
  | lui rd imm => exact agreeAfter_of_writeReg rfl (exec_lui s rd imm) (exec_lui s' rd imm) hmem

end

/-- Settles O27: the table is the definition of the selects, and each instruction reads and writes by them. -/
theorem registersReadAndWrittenPerShape : Obligations.RegistersReadAndWrittenPerShape := by
  refine ⟨fun rd rs1 rs2 => ?registerRegister, fun rd rs1 imm => ?oneSource, fun rd rs1 offset => ?store,
    fun _ _ => rfl, fun text h => ?skip, fun i s s' => agreeAfter_of_agreeOnReads⟩
  case registerRegister => simp [ports, portsRegisterRegister]
  case oneSource => simp [ports, portsRegisterImmediate, portsLoad]
  case store => simp [ports, portsStore]
  case skip => rw [textPorts, h, portsUnknown]

end Sys2Proof.Machine
end

section
/-! Shifts and `lui` as exact arithmetic (40_register_register.md R117, R118, R120; 43_upper_immediate.md R160). -/
namespace Sys2Proof.Machine

/-! ### Shifts -/

/-- A left shift is a product with a power of two, wrapped. -/
theorem shiftLeft_eq_ofNat (a : Word) (n : Nat) : a <<< n = BitVec.ofNat 32 (a.toNat * 2 ^ n) := by
  apply BitVec.eq_of_toNat_eq
  rw [BitVec.toNat_shiftLeft, BitVec.toNat_ofNat, Nat.shiftLeft_eq]

/-- An arithmetic right shift is the quotient by a power of two, rounded down. -/
theorem sshiftRight_eq_wrap32 (a : Word) (n : Nat) : a.sshiftRight n = wrap32 (a.toInt / 2 ^ n) := by
  have hquot : a.toInt / 2 ^ n = (a.sshiftRight n).toInt := by
    rw [BitVec.toInt_sshiftRight, Int.shiftRight_eq_div_pow]
    norm_cast
  rw [hquot, wrap32, BitVec.ofInt_toInt]

/-- An amount of 0 to 31 is its own low five bits. -/
theorem low_five_bits_eq_toInt {b : Word} (hlo : 0 ≤ b.toInt) (hhi : b.toInt ≤ 31) :
    ((b.toNat % 32 : Nat) : Int) = b.toInt := by
  have hcond := BitVec.toInt_eq_toNat_cond b
  have hlt := b.isLt
  split at hcond <;> omega

/-- Settles O31: the shift amount is the remainder by 32, and the shifts are a product and a quotient. -/
theorem shiftsUseTheLowFiveBits : Obligations.ShiftsUseTheLowFiveBits := by
  intro rd rs1 rs2 s sh
  have hsh : shiftAmount (s.readReg rs2) = sh := shiftAmount_eq _
  refine ⟨low_five_bits_eq_toInt, ?sll, ?sra⟩
  case sll =>
    rw [← shiftLeft_eq_ofNat, ← hsh]
    exact completes_of_exec_eq_writeReg (exec_sll s rd rs1 rs2)
  case sra =>
    rw [← sshiftRight_eq_wrap32, ← hsh]
    exact completes_of_exec_eq_writeReg (exec_sra s rd rs1 rs2)

/-! ### `lui` -/

/-- The decoder's answer to a customary `lui` text is that of the range check of its field. -/
theorem decode_lui (rd : RegIndex) {v : Int} (hlo : -2147483648 ≤ v) (hhi : v ≤ 2147483647) :
    decode (mnemonicText .lui ++ chSpace :: (regText rd ++ (commaSpace ++ intText v))) =
      Decoded.ofExcept ((imm20 v).map (.lui rd)) := by
  have hcomma : chNul ∉ commaSpace := by decide
  have hnul : chNul ∉ regText rd ++ (commaSpace ++ intText v) := by
    simp [hcomma, chNul_notMem_regText, chNul_notMem_intText]
  rw [decode_mnemonic .lui _ hnul, decodeOperands, upperImmediateFormat_intText .lui rd hlo hhi]

theorem shiftLeft12_eq_wrap32 (imm : Word) : imm <<< 12 = wrap32 (imm.toNat * 2 ^ 12) := by
  rw [shiftLeft_eq_ofNat, wrap32, ← BitVec.ofInt_natCast]
  push_cast
  rfl

theorem getLsbD_shiftLeft12 (imm : Word) {k : Nat} (hk : k < 32) :
    (imm <<< 12).getLsbD k = (decide (12 ≤ k) && imm.getLsbD (k - 12)) := by
  rw [BitVec.getLsbD_shiftLeft, decide_eq_true hk, Bool.true_and, ← decide_not, decide_eq_decide.mpr not_lt]

/-- Settles O35: the range check of the 20-bit field decides the decoding, and the shift by 12 is the product. -/
theorem luiPlacesTheUpperBits : Obligations.LuiPlacesTheUpperBits := by
  intro rd s
  refine ⟨fun v hlo hhi => ?accepted, fun v hlo hhi hout => ?refused, fun imm => ?writes⟩
  case accepted => exact (decode_lui rd (by omega) (by omega)).trans (by rw [imm20_of_mem_range hlo hhi]; rfl)
  case refused => exact (decode_lui rd hlo hhi).trans (by rw [imm20_of_notMem_range hout]; rfl)
  case writes =>
    refine ⟨_, exec_lui s rd imm, ?_, fun k hk => ?_⟩
    · rw [← shiftLeft12_eq_wrap32]
      exact s.writesOnly_writeReg rd _
    · rw [State.readReg_writeReg_self, getLsbD_shiftLeft12 imm hk]

end Sys2Proof.Machine
end

section
/-! Loads and stores (20_memory.md sections 1, 2, 4 and 5; 42_memory_access.md): addresses as wrapped sums, bytes as
numbers, and what a store leaves at each address. -/
namespace Sys2Proof.Machine

/-! ### Addresses -/

theorem byteAddress_eq_wrap32 (ea : Word) (i : Nat) : byteAddress ea i = wrap32 (ea.toInt + i) := by
  rw [byteAddress, wrap32, BitVec.ofInt_add, BitVec.ofInt_toInt, BitVec.ofInt_natCast]

theorem byteAddress_zero (ea : Word) : byteAddress ea 0 = ea := BitVec.add_zero ea

/-- Settles O36: word addition is the signed sum, wrapped. -/
theorem effectiveAddressWraps : Obligations.EffectiveAddressWraps :=
  ⟨effectiveAddress_eq_wrap32, fun ea => ⟨byteAddress_eq_wrap32 ea, fun _ _ hi hj => (byteAddress_inj ea hi hj).mp⟩⟩

/-! ### Bytes and words as numbers -/

theorem toInt_signExtendByte (b : Byte) :
    (signExtendByte b).toInt = if b.toNat < 128 then (b.toNat : Int) else (b.toNat : Int) - 256 := by
  rw [signExtendByte_eq, BitVec.toInt_signExtend_of_le (by decide), BitVec.toInt_eq_toNat_cond]
  split <;> split <;> omega

/-- Bits shifted past a number add a multiple of a power of two to it. -/
theorem or_shiftLeft_eq_add {x k : Nat} (h : x < 2 ^ k) (y : Nat) : x ||| y <<< k = x + 2 ^ k * y := by
  rw [Nat.shiftLeft_eq, Nat.mul_comm y, Nat.or_comm, ← Nat.two_pow_add_eq_or_of_lt h, Nat.add_comm]

/-- A byte shifted to its place in a word loses no bit. -/
theorem toNat_shifted_byte (b : Byte) {k : Nat} (hk : k ≤ 24) : (b.setWidth 32 <<< k).toNat = b.toNat <<< k := by
  have hlt : b.toNat <<< k < 2 ^ 32 :=
    calc b.toNat <<< k = b.toNat * 2 ^ k := Nat.shiftLeft_eq _ _
      _ < 2 ^ 8 * 2 ^ k := Nat.mul_lt_mul_of_pos_right b.isLt (Nat.two_pow_pos k)
      _ ≤ 2 ^ 8 * 2 ^ 24 := Nat.mul_le_mul_left _ (Nat.pow_le_pow_right (by decide) hk)
  rw [BitVec.toNat_shiftLeft, BitVec.toNat_setWidth_of_le (by decide), Nat.mod_eq_of_lt hlt]

theorem toNat_assembleWord (b0 b1 b2 b3 : Byte) :
    (assembleWord b0 b1 b2 b3).toNat = b0.toNat + 2 ^ 8 * b1.toNat + 2 ^ 16 * b2.toNat + 2 ^ 24 * b3.toNat := by
  have h0 := b0.isLt
  have h1 := b1.isLt
  have h2 := b2.isLt
  rw [assembleWord, BitVec.toNat_or, BitVec.toNat_or, BitVec.toNat_or, toNat_shifted_byte b1 (by decide),
    toNat_shifted_byte b2 (by decide), toNat_shifted_byte b3 (by decide), BitVec.toNat_setWidth_of_le (by decide),
    or_shiftLeft_eq_add h0, or_shiftLeft_eq_add (x := b0.toNat + 2 ^ 8 * b1.toNat) (by omega),
    or_shiftLeft_eq_add (by omega)]

theorem toNat_byteOf (v : Word) (i : Nat) : (byteOf v i).toNat = v.toNat / 2 ^ (8 * i) % 2 ^ 8 := by
  rw [byteOf, BitVec.toNat_setWidth, BitVec.toNat_ushiftRight, Nat.shiftRight_eq_div_pow]

/-- Settles O44: each operation of the marshaling unit as arithmetic. -/
theorem bytesWidenAndNarrow : Obligations.BytesWidenAndNarrow :=
  ⟨toInt_signExtendByte, toNat_assembleWord, fun v i _ => toNat_byteOf v i⟩

theorem byteOf_eq_ofNat (v : Word) (i : Nat) : byteOf v i = BitVec.ofNat 8 (v.toNat / 2 ^ (8 * i)) := by
  apply BitVec.eq_of_toNat_eq
  rw [toNat_byteOf, BitVec.toNat_ofNat]

theorem byteOf_zero (v : Word) : byteOf v 0 = BitVec.ofNat 8 v.toNat := by
  rw [byteOf_eq_ofNat, Nat.mul_zero, Nat.pow_zero, Nat.div_one]

/-- The bytes of a word, assembled, are the word. -/
theorem assembleWord_byteOf (v : Word) : assembleWord (byteOf v 0) (byteOf v 1) (byteOf v 2) (byteOf v 3) = v := by
  have hlt := v.isLt
  apply BitVec.eq_of_toNat_eq
  simp only [toNat_assembleWord, toNat_byteOf]
  omega

/-! ### Loads -/

/-- Settles O37: the assembly of the four bytes at the byte addresses. -/
theorem loadWordAssemblesLittleEndian : Obligations.LoadWordAssemblesLittleEndian := by
  intro rd offset rs1 s ea b
  refine ⟨_, _, exec_lw s rd rs1 offset, s.writesOnly_writeReg rd _, ?_⟩
  rw [Memory.readWord, toNat_assembleWord, effectiveAddress_eq_wrap32]
  simp only [byteAddress_eq_wrap32]
  rfl

/-- Settles O38: the widening of the byte at the effective address. -/
theorem loadByteSignExtends : Obligations.LoadByteSignExtends := by
  intro rd offset rs1 s b
  refine ⟨_, _, exec_lb s rd rs1 offset, s.writesOnly_writeReg rd _, ?_⟩
  rw [Memory.readByte, toInt_signExtendByte, effectiveAddress_eq_wrap32]

/-! ### Stores -/

theorem exec_sw (s : State) (rd rs1 : RegIndex) (offset : Word) : exec (.sw rd offset rs1) s =
    .next { s with memory := s.memory.writeWord (effectiveAddress s rs1 offset) (s.readReg rd) } := rfl

theorem exec_sb (s : State) (rd rs1 : RegIndex) (offset : Word) : exec (.sb rd offset rs1) s =
    .next { s with memory := s.memory.writeByte (effectiveAddress s rs1 offset) (s.readReg rd) } := rfl

theorem State.keepsRegisters_withMemory (s : State) (m : Memory) : s.KeepsRegisters { s with memory := m } :=
  ⟨fun _ => rfl, rfl, rfl⟩

@[simp] theorem effectiveAddress_withMemory (s : State) (m : Memory) (rs1 : RegIndex) (offset : Word) :
    effectiveAddress { s with memory := m } rs1 offset = effectiveAddress s rs1 offset := rfl

section
variable (m : Memory) (ea v : Word)

theorem Memory.get_writeWord_byte {i : Nat} (hi : i < 4) : (m.writeWord ea v).get (byteAddress ea i) = byteOf v i := by
  rw [Memory.get_writeWord]
  interval_cases i <;> simp [byteAddress_inj]

theorem Memory.present_writeWord_byte {i : Nat} (hi : i < 4) :
    (m.writeWord ea v).present (byteAddress ea i) = true := by
  rw [Memory.present_writeWord]
  interval_cases i <;> simp

variable {ea} in
theorem Memory.get_writeWord_other {a : Word} (h : ∀ i < 4, a ≠ byteAddress ea i) :
    (m.writeWord ea v).get a = m.get a := by
  rw [Memory.get_writeWord, if_neg (h 3 (by decide)), if_neg (h 2 (by decide)), if_neg (h 1 (by decide)),
    if_neg (h 0 (by decide))]

variable {ea} in
theorem Memory.present_writeWord_other {a : Word} (h : ∀ i < 4, a ≠ byteAddress ea i) :
    (m.writeWord ea v).present a = m.present a := by
  simp [Memory.present_writeWord, h]

/-- The counter grows by the number of keys that were absent, where no key is put twice. -/
theorem Memory.size_putAll_of_nodup {ps : List (Word × Byte)} (h : (ps.map Prod.fst).Nodup) (m : Memory) :
    (m.putAll ps).size = m.size + (ps.filter fun p => !m.present p.1).length := by
  induction ps generalizing m with
  | nil => rfl
  | cons p ps ih =>
    obtain ⟨hp, hps⟩ := List.nodup_cons.mp h
    have hrest : (ps.filter fun q => !(m.put p.1 p.2).present q.1) = ps.filter fun q => !m.present q.1 := by
      refine List.filter_congr fun q hq => ?_
      have hne : q.1 ≠ p.1 := fun e => hp (e ▸ List.mem_map_of_mem hq)
      rw [Memory.present_put, decide_eq_false hne, Bool.false_or]
    rw [Memory.putAll_cons, ih hps, hrest, Memory.size_put, List.filter_cons]
    cases m.present p.1 <;> simp +arith

/-- The bytes of a word with their addresses, in the order of the `put`s. -/
def wordStores : List (Word × Byte) := (List.range 4).map fun i => (byteAddress ea i, byteOf v i)

theorem Memory.writeWord_eq_putAll : m.writeWord ea v = m.putAll (wordStores ea v) := rfl

theorem wordStores_keys_nodup : ((wordStores ea v).map Prod.fst).Nodup := by
  rw [wordStores, List.map_map]
  refine List.Nodup.map_on (fun i hi j hj => ?_) List.nodup_range
  exact (byteAddress_inj ea (List.mem_range.mp hi) (List.mem_range.mp hj)).mp

theorem Memory.size_writeWord : (m.writeWord ea v).size =
    m.size + ((List.range 4).filter fun i => !m.present (byteAddress ea i)).length := by
  rw [Memory.writeWord_eq_putAll, Memory.size_putAll_of_nodup (wordStores_keys_nodup ea v), wordStores,
    List.filter_map, List.length_map]
  rfl

/-- A word load after a word store at the same address gives the stored word (95_test_vectors.md section 1.5). -/
theorem Memory.readWord_writeWord : (m.writeWord ea v).readWord ea = v := by
  rw [Memory.readWord, m.get_writeWord_byte ea v (by decide), m.get_writeWord_byte ea v (by decide),
    m.get_writeWord_byte ea v (by decide), m.get_writeWord_byte ea v (by decide), assembleWord_byteOf]

theorem Memory.readByte_writeByte : (m.writeByte ea v).readByte ea = byteOf v 0 := by
  rw [Memory.readByte, Memory.get_writeByte, if_pos rfl]

/-- A byte store leaves the three higher bytes of the word at its address. -/
theorem Memory.get_writeByte_higher {i : Nat} (h0 : 0 < i) (hi : i < 4) :
    (m.writeByte ea v).get (byteAddress ea i) = m.get (byteAddress ea i) := by
  have hne : byteAddress ea i ≠ ea := fun e =>
    h0.ne' ((byteAddress_inj ea hi (by decide)).mp (e.trans (byteAddress_zero ea).symm))
  rw [Memory.get_writeByte, if_neg hne]

/-- A word load after a byte store gives the old word with its low byte replaced. -/
theorem Memory.toNat_readWord_writeByte : ((m.writeByte ea v).readWord ea).toNat =
    (m.readWord ea).toNat / 256 * 256 + v.toNat % 256 := by
  have hb := (m.get ea).isLt
  simp only [Memory.readWord, toNat_assembleWord, byteAddress_zero, m.get_writeByte_higher ea v (i := 1),
    m.get_writeByte_higher ea v (i := 2), m.get_writeByte_higher ea v (i := 3), Nat.reduceLT,
    Memory.get_writeByte, if_true, byteOf_zero, BitVec.toNat_ofNat]
  omega

end

/-- Settles O39: the four bytes by the read-after-write laws of a word store, and the counter by its absent keys. -/
theorem storeWordWritesFourBytes : Obligations.StoreWordWritesFourBytes := by
  intro rd offset rs1 s ea
  refine ⟨effectiveAddress_eq_wrap32 s rs1 offset, fun i _ => byteAddress_eq_wrap32 ea i, _, exec_sw s rd rs1 offset,
    s.keepsRegisters_withMemory _, fun i hi => ⟨?present, ?byte⟩, fun a ha => ⟨?get, ?domain⟩, ?size⟩
  case present => exact s.memory.present_writeWord_byte ea _ hi
  case byte => exact (s.memory.get_writeWord_byte ea _ hi).trans (byteOf_eq_ofNat _ i)
  case get => exact s.memory.get_writeWord_other _ ha
  case domain => exact s.memory.present_writeWord_other _ ha
  case size => exact s.memory.size_writeWord ea _

/-- Settles O40: a byte store is one `put`. -/
theorem storeByteWritesOneByte : Obligations.StoreByteWritesOneByte := by
  intro rd offset rs1 s ea
  refine ⟨effectiveAddress_eq_wrap32 s rs1 offset, _, exec_sb s rd rs1 offset, s.keepsRegisters_withMemory _, ?present,
    ?byte, fun a ha => ⟨?get, ?domain⟩, ?size⟩
  case present => exact (s.memory.present_writeByte ea _ ea).trans (by simp)
  case byte => exact (s.memory.readByte_writeByte ea _).trans (byteOf_zero _)
  case get => exact (s.memory.get_writeByte ea _ a).trans (if_neg ha)
  case domain => exact (s.memory.present_writeByte ea _ a).trans (by simp [ha])
  case size => exact s.memory.size_put ea _

/-- A mnemonic whose operands are read in the Memory format is decoded from its customary text. -/
theorem decode_memory {m : Mnemonic} {mk : RegIndex → Word → RegIndex → Instr}
    (hformat : ∀ fs, decodeOperands m fs = memoryFormat mk fs) (rd : RegIndex) (offset : Word) (rs1 : RegIndex) :
    decode (mnemonicText m ++ [chSpace] ++ memoryOperands rd offset rs1) = .instr (mk rd offset rs1) :=
  decode_of_operands (chNul_notMem_operandText (.lw rd offset rs1))
    ((hformat _).trans (memoryFormat_operands mk rd offset rs1))

/-- Settles O41: the first token is the value register, and reading back gives its word or its low byte. -/
theorem storesReadTheirFirstOperand : Obligations.StoresReadTheirFirstOperand := by
  intro rd offset rs1 s
  refine ⟨⟨decode_memory (m := .sw) (fun _ => rfl) rd offset rs1, _, exec_sw s rd rs1 offset, fun _ => rfl, ?word⟩,
    decode_memory (m := .sb) (fun _ => rfl) rd offset rs1, _, exec_sb s rd rs1 offset, fun _ => rfl, ?byte⟩
  case word => exact s.memory.readWord_writeWord _ _
  case byte => exact s.memory.readByte_writeByte _ _

/-- A byte load gives the sign extension of the byte at its effective address. -/
theorem exec_lb_of_get {s : State} {rs1 : RegIndex} {offset : Word} {b : Byte}
    (h : s.memory.get (effectiveAddress s rs1 offset) = b) (rd : RegIndex) :
    ∃ u, exec (.lb rd offset rs1) s = .next u ∧ u.readReg rd = b.signExtend 32 :=
  ⟨_, exec_lb s rd rs1 offset, by rw [State.readReg_writeReg_self, Memory.readByte, h, signExtendByte_eq]⟩

/-- Settles O42: loads after stores, by the read-after-write laws of a word store and of a byte store. -/
theorem mixedSizeAccessesCompose : Obligations.MixedSizeAccessesCompose := by
  intro rd offset rs1 s ea x
  refine ⟨⟨_, exec_sw s rd rs1 offset, fun i rd2 offset2 rs2 hi haddr => ?wordByte, fun rd2 => ?wordWord⟩,
    _, exec_sb s rd rs1 offset, fun rd2 => ⟨?byteWord, ?byteByte⟩⟩
  case wordByte =>
    refine exec_lb_of_get ?_ rd2
    rw [haddr, ← byteOf_eq_ofNat]
    exact s.memory.get_writeWord_byte ea _ hi
  case wordWord =>
    refine ⟨_, exec_lw _ rd2 rs1 offset, ?_⟩
    rw [State.readReg_writeReg_self, effectiveAddress_withMemory]
    exact s.memory.readWord_writeWord ea _
  case byteWord =>
    refine ⟨_, exec_lw _ rd2 rs1 offset, ?_⟩
    rw [State.readReg_writeReg_self, effectiveAddress_withMemory]
    exact s.memory.toNat_readWord_writeByte ea _
  case byteByte =>
    refine exec_lb_of_get ?_ rd2
    rw [effectiveAddress_withMemory, ← byteOf_zero]
    exact s.memory.readByte_writeByte ea _

end Sys2Proof.Machine
end

section
/-! The store as the map `M` (10_state.md section 6; 20_memory.md section 2): what a sequence of `put`s leaves, that the
canonical form determines the data, and what a step does to memory. -/
namespace Sys2Proof.Machine

/-! ### One `put` -/

/-- Settles O45: the laws of one `put` for the map and the counter. -/
theorem putOverwritesOrInserts : Obligations.PutOverwritesOrInserts := fun m key v =>
  ⟨(m.lookup_put key key v).trans (if_pos rfl), fun q hq => (m.lookup_put key q v).trans (if_neg hq),
    fun h => (m.size_put key v).trans (if_pos h), fun h => (m.size_put key v).trans (by rw [h]; rfl)⟩

/-! ### A sequence of `put`s -/

section
variable (m : Memory) (ps : List (Word × Byte))

@[simp] theorem Memory.putAll_append_singleton (p : Word × Byte) :
    m.putAll (ps ++ [p]) = (m.putAll ps).put p.1 p.2 := by
  simp [Memory.putAll]

/-- The value of an address is the one put there last. -/
theorem Memory.get_putAll (a : Word) : (m.putAll ps).get a =
    ((ps.reverse.find? fun p => decide (p.1 = a)).map Prod.snd).getD (m.get a) := by
  induction ps using List.reverseRecOn with
  | nil => rfl
  | append_singleton ps p ih =>
    rw [Memory.putAll_append_singleton, Memory.get_put, List.reverse_append, List.reverse_singleton,
      List.singleton_append, List.find?_cons]
    obtain rfl | ha := eq_or_ne a p.1
    · simp
    · rw [if_neg ha, decide_eq_false ha.symm, ih]

theorem Memory.present_putAll (a : Word) :
    (m.putAll ps).present a = true ↔ a ∈ ps.map Prod.fst ∨ m.present a = true := by
  induction ps generalizing m with
  | nil => simp
  | cons p ps ih =>
    rw [Memory.putAll_cons, ih, Memory.present_put, Bool.or_eq_true, decide_eq_true_eq, List.map_cons, List.mem_cons]
    tauto

/-- An address that is not put keeps its value and its presence. -/
theorem Memory.putAll_of_notMem {a : Word} (h : a ∉ ps.map Prod.fst) :
    (m.putAll ps).get a = m.get a ∧ (m.putAll ps).present a = m.present a := by
  induction ps generalizing m with
  | nil => exact ⟨rfl, rfl⟩
  | cons p ps ih =>
    rw [List.map_cons, List.mem_cons, not_or] at h
    obtain ⟨hget, hpresent⟩ := ih (m.put p.1 p.2) h.2
    rw [Memory.putAll_cons, hget, hpresent, Memory.get_put, Memory.present_put, if_neg h.1, decide_eq_false h.1,
      Bool.false_or]
    exact ⟨rfl, rfl⟩

end

/-- From the empty store, the counter is the number of distinct keys. -/
theorem Memory.size_putAll_empty (ps : List (Word × Byte)) :
    (Memory.empty.putAll ps).size = (ps.map Prod.fst).toFinset.card := by
  induction ps using List.reverseRecOn with
  | nil => rfl
  | append_singleton ps p ih =>
    have hpresent := Memory.empty.present_putAll ps p.1
    have hempty : Memory.empty.present p.1 = false := rfl
    rw [hempty] at hpresent
    rw [Memory.putAll_append_singleton, Memory.size_put, ih, List.map_append, List.toFinset_append]
    by_cases hp : p.1 ∈ ps.map Prod.fst
    · rw [if_pos (hpresent.mpr (.inl hp))]
      simp [hp]
    · rw [if_neg fun h => hp ((hpresent.mp h).resolve_right Bool.false_ne_true)]
      simp [hp]

/-! ### The bound of the counter (92_eei_decisions.md D16) -/

/-- Rising numbers below a bound are at most as many as the bound. -/
theorem length_le_of_pairwise_lt {ks : List Nat} {bound : Nat} (hrise : ks.Pairwise (· < ·))
    (hlt : ∀ k ∈ ks, k < bound) : ks.length ≤ bound := by
  have hnodup : ks.Nodup := hrise.imp ne_of_lt
  have hsub : ks ⊆ List.range bound := fun k hk => List.mem_range.mpr (hlt k hk)
  simpa using (List.subperm_of_subset hnodup hsub).length_le

theorem Memory.size_of_wf {m : Memory} (h : m.wf) : m.size = m.keys.length ∧ m.size ≤ 2 ^ 32 := by
  obtain ⟨-, -, hrise, -, hlt, hsize⟩ := h
  exact ⟨hsize, hsize.trans_le (length_le_of_pairwise_lt hrise hlt)⟩

/-- Settles O46: the laws of a sequence of `put`s from the empty store, whose keys are bounded by the canonical form. -/
theorem storeHistoryDeterminesGetAndSize : Obligations.StoreHistoryDeterminesGetAndSize := by
  intro ps m
  refine ⟨Memory.empty.get_putAll ps, fun a => ?present, ?size, ?bound⟩
  case present =>
    have hempty : Memory.empty.present a ≠ true := Bool.false_ne_true
    exact (Memory.empty.present_putAll ps a).trans (or_iff_left hempty)
  case size => exact (Memory.size_putAll_empty ps).trans (List.card_toFinset _)
  case bound => exact (Memory.size_of_wf (Memory.putAll_wf Memory.empty_wf ps)).2

/-! ### The canonical form determines the data -/

/-- Two lists whose members rise by a number of theirs are equal when they have the same members. -/
theorem eq_of_mem_iff_of_rising {α : Type} (f : α → Nat) {l l' : List α} (h : l.Pairwise fun a b => f a < f b)
    (h' : l'.Pairwise fun a b => f a < f b) (hmem : ∀ a, a ∈ l ↔ a ∈ l') : l = l' := by
  have hnodup : ∀ {l : List α}, l.Pairwise (fun a b => f a < f b) → l.Nodup := fun h =>
    h.imp fun hlt heq => absurd hlt (by rw [heq]; exact lt_irrefl _)
  have hperm : l.Perm l' := (List.perm_ext_iff_of_nodup (hnodup h) (hnodup h')).mpr hmem
  exact hperm.eq_of_pairwise (fun _ _ _ _ hab hba => absurd hab (lt_asymm hba)) h h'

/-- A cell of a rising list is what the list reads as at its address. -/
theorem cellsRead_of_mem {cs : List Host.Cell} (h : cs.Pairwise fun c d => c.1 < d.1) {c : Host.Cell} (hc : c ∈ cs) :
    cellsRead cs c.1 = c.2 := by
  induction cs with
  | nil => cases hc
  | cons d ds ih =>
    obtain ⟨hd, hds⟩ := List.pairwise_cons.mp h
    rw [cellsRead]
    obtain rfl | hc := List.mem_cons.mp hc
    · exact if_pos rfl
    · rw [if_neg (hd c hc).ne, ih hds hc]

/-- An address that reads as a listed byte is listed with it. -/
theorem mem_of_cellsRead {cs : List Host.Cell} {a : Nat} (h : cellsRead cs a ≠ Config.unlistedByte) :
    (a, cellsRead cs a) ∈ cs := by
  induction cs with
  | nil => exact absurd rfl h
  | cons c cs ih =>
    rw [cellsRead] at h ⊢
    by_cases hca : c.1 = a
    · rw [if_pos hca, ← hca]
      exact List.mem_cons_self
    · rw [if_neg hca] at h ⊢
      exact List.mem_cons_of_mem _ (ih h)

theorem Memory.isSome_lookup (m : Memory) (a : Word) : (m.lookup a).isSome = m.present a := by
  rw [Memory.lookup]
  cases m.present a <;> rfl

/-- A written address is the number of some 32-bit pattern. -/
theorem Memory.toNat_ofNat_of_mem_keys {m : Memory} (h : m.wf) {k : Nat} (hk : k ∈ m.keys) :
    (BitVec.ofNat 32 k).toNat = k := by
  obtain ⟨-, -, -, -, hlt, -⟩ := h
  exact Nat.mod_eq_of_lt (hlt k hk)

section
variable {m m' : Memory} (hwf : m.wf) (heq : ∀ a, m.lookup a = m'.lookup a)
include hwf heq

theorem Memory.mem_keys_of_lookup_eq {k : Nat} (hk : k ∈ m.keys) : k ∈ m'.keys := by
  have hpattern := Memory.toNat_ofNat_of_mem_keys hwf hk
  have hpresent : m.present (BitVec.ofNat 32 k) = true := by simpa [Memory.present, hpattern] using hk
  rw [← Memory.isSome_lookup, heq, Memory.isSome_lookup] at hpresent
  rw [← hpattern]
  exact of_decide_eq_true hpresent

theorem Memory.cellsRead_eq_of_lookup_eq {k : Nat} (hk : k ∈ m.keys) : cellsRead m.cells k = cellsRead m'.cells k := by
  have hpattern := Memory.toNat_ofNat_of_mem_keys hwf hk
  have hk' := Memory.mem_keys_of_lookup_eq hwf heq hk
  simpa [Memory.lookup, Memory.present, hpattern, hk, hk'] using heq (BitVec.ofNat 32 k)

theorem Memory.mem_cells_of_lookup_eq {c : Host.Cell} (hc : c ∈ m.cells) : c ∈ m'.cells := by
  have heqRead := Memory.cellsRead_eq_of_lookup_eq hwf heq (k := c.1)
  obtain ⟨hrise, hlisted, -, hkeys, -, -⟩ := hwf
  have hread := cellsRead_of_mem hrise hc
  have hread' : cellsRead m'.cells c.1 = c.2 := (heqRead (hkeys c hc)).symm.trans hread
  have hmem := mem_of_cellsRead (cs := m'.cells) (a := c.1) (by rw [hread']; exact hlisted c hc)
  rwa [hread'] at hmem

end

/-- Settles O47: equal lookups give the same keys and the same cells, and rising lists with the same members are equal. -/
theorem canonicalMemoriesAreEqual : Obligations.CanonicalMemoriesAreEqual := by
  intro m m' hwf hwf' heq
  have heq' : ∀ a, m'.lookup a = m.lookup a := fun a => (heq a).symm
  have hmemCells : ∀ c, c ∈ m.cells ↔ c ∈ m'.cells := fun _ =>
    ⟨Memory.mem_cells_of_lookup_eq hwf heq, Memory.mem_cells_of_lookup_eq hwf' heq'⟩
  have hmemKeys : ∀ k, k ∈ m.keys ↔ k ∈ m'.keys := fun _ =>
    ⟨Memory.mem_keys_of_lookup_eq hwf heq, Memory.mem_keys_of_lookup_eq hwf' heq'⟩
  obtain ⟨hcellsRise, -, hkeysRise, -, -, hcount⟩ := hwf
  obtain ⟨hcellsRise', -, hkeysRise', -, -, hcount'⟩ := hwf'
  have hcells : m.cells = m'.cells := eq_of_mem_iff_of_rising Prod.fst hcellsRise hcellsRise' hmemCells
  have hkeys : m.keys = m'.keys := eq_of_mem_iff_of_rising id hkeysRise hkeysRise' hmemKeys
  have hsize : m.size = m'.size := by rw [hcount, hcount', hkeys]
  cases m
  cases m'
  simp only at hcells hkeys hsize
  rw [hcells, hkeys, hsize]

/-- Settles O48: both orders give every address the same cell, and both results are canonical. -/
theorem putsAtDifferentKeysCommute : Obligations.PutsAtDifferentKeysCommute := by
  intro m k k' v v' hwf hne
  refine canonicalMemoriesAreEqual _ _ (Memory.put_wf (Memory.put_wf hwf k v) k' v')
    (Memory.put_wf (Memory.put_wf hwf k' v') k v) fun a => ?_
  simp only [Memory.lookup_put]
  obtain rfl | ha := eq_or_ne a k
  · simp [hne]
  · simp [ha]

/-! ### Steps -/

theorem storesOf_length_le (i : Instr) (s : State) : (storesOf i s).length ≤ 4 := by
  cases i with
  | sw => exact le_rfl
  | _ => simp [storesOf]

theorem stepStores_length_le (s : State) : (stepStores s).length ≤ 4 := by
  unfold stepStores
  cases nextText s with
  | none => simp
  | some text =>
    cases hd : decode text with
    | skip => simp [hd]
    | refuse r => simp [hd]
    | instr i => simpa [hd] using storesOf_length_le i s

/-- Settles O49: a step's memory is a sequence of at most four `put`s, and the laws of such sequences give the rest. -/
theorem stepsOnlyPut : Obligations.StepsOnlyPut := by
  intro s t hstep
  have hmem := step_memory hstep
  have hlength := stepStores_length_le s
  obtain ⟨hpresent, hge, hle⟩ := Memory.foldl_put_monotone (stepStores s) s.memory
  rw [← Memory.putAll, ← hmem] at hge hle
  refine ⟨hmem, hlength, fun a ha => ?frame, fun a ha => ?stays, hge, by omega, fun hinv => ?bound⟩
  case frame =>
    rw [hmem]
    exact s.memory.putAll_of_notMem _ ha
  case stays =>
    rw [hmem]
    exact hpresent a ha
  case bound => exact Memory.size_of_wf (stepKeepsTheInvariant s t hinv hstep)

end Sys2Proof.Machine
end

section
/-! The bucket store (10_state.md section 7; 20_memory.md section 3): its two invariants, and that it refines the map for
every count of buckets. -/
namespace Sys2Proof.Machine

/-! ### The hash -/

/-- A key and its negative have the same absolute value: the most negative key is its own negative. -/
theorem natAbs_toInt_neg (key : Word) : (-key).toInt.natAbs = key.toInt.natAbs := by
  have hrange := toInt_word_range key
  rw [BitVec.toInt_neg, Int.bmod_def]
  split <;> omega

theorem natAbs_toInt_of_nonneg {key : Word} (h : 0 ≤ key.toInt) : key.toInt.natAbs = key.toNat := by
  have hcond := BitVec.toInt_eq_toNat_cond key
  have hlt := key.isLt
  split at hcond <;> omega

/-- Settles O50: the hash is the absolute value modulo the count. -/
theorem bucketHashFoldsTheSign : Obligations.BucketHashFoldsTheSign := fun n key hn =>
  ⟨bucketHash_lt hn key, by rw [bucketHash, natAbs_toInt_neg, bucketHash],
    fun h => by rw [bucketHash, natAbs_toInt_of_nonneg h], rfl⟩

/-! ### The two invariants of 10_state.md R33 -/

namespace BucketStore

theorem getD_init (n j : Nat) : (init n).buckets.getD j [] = [] := by
  rw [List.getD_eq_getElem?_getD]
  cases h : (init n).buckets[j]? with
  | none => rfl
  | some c => exact eq_nil_of_mem_init_buckets (List.mem_of_getElem? h)

theorem init_wf (n : Nat) : (init n).wf := by
  refine ⟨fun j x hx => ?hash, fun j => ?nodup⟩
  case hash =>
    rw [getD_init] at hx
    cases hx
  case nodup =>
    rw [getD_init]
    exact List.nodup_nil

section
variable {b : BucketStore} (hpos : 0 < b.buckets.length) (hwf : b.wf) (key : Word) (v : Byte)

theorem getD_put_hash :
    (b.put key v).buckets.getD (bucketHash b.buckets.length key) [] = (b.put key v).chain key := by
  rw [chain, put_length]

include hwf in
theorem hash_of_mem_chain {n : Node} (hn : n ∈ b.chain key) :
    bucketHash b.buckets.length n.1 = bucketHash b.buckets.length key := hwf.1 _ n hn

include hpos in
/-- A node of the key's bucket after a `put` is one of the key or an old one. -/
theorem mem_chain_put {n : Node} (hn : n ∈ (b.put key v).chain key) : n.1 = key ∨ n ∈ b.chain key := by
  cases hlookup : chainLookup (b.chain key) key with
  | none =>
    rw [chain_put_of_lookup_eq_none hpos hlookup] at hn
    exact (List.mem_cons.mp hn).imp (congrArg Prod.fst) id
  | some w =>
    rw [chain_put_of_lookup_eq_some hpos hlookup] at hn
    exact mem_chainOverwrite hn

include hpos hwf in
/-- The keys of the key's bucket stay unique: an overwrite keeps them, and a new node's key was not there. -/
theorem nodup_keys_chain_put : (((b.put key v).chain key).map Prod.fst).Nodup := by
  have hnodup := nodup_keys_chain hwf key
  cases hlookup : chainLookup (b.chain key) key with
  | none =>
    rw [chain_put_of_lookup_eq_none hpos hlookup, List.map_cons]
    refine List.nodup_cons.mpr ⟨fun hmem => ?_, hnodup⟩
    obtain ⟨n, hn, hkey⟩ := List.mem_map.mp hmem
    exact chainLookup_eq_none.mp hlookup n hn hkey
  | some w =>
    rw [chain_put_of_lookup_eq_some hpos hlookup, chainOverwrite_keys]
    exact hnodup

include hpos hwf in
theorem put_wf : (b.put key v).wf := by
  refine ⟨fun j n hn => ?hash, fun j => ?nodup⟩
  case hash =>
    rw [put_length]
    obtain rfl | hj := eq_or_ne j (bucketHash b.buckets.length key)
    · rw [getD_put_hash] at hn
      obtain hkey | hold := mem_chain_put hpos key v hn
      · rw [hkey]
      · exact hash_of_mem_chain hwf key hold
    · rw [getD_put_of_ne_hash hpos v hj] at hn
      exact hwf.1 j n hn
  case nodup =>
    obtain rfl | hj := eq_or_ne j (bucketHash b.buckets.length key)
    · rw [getD_put_hash]
      exact nodup_keys_chain_put hpos hwf key v
    · rw [getD_put_of_ne_hash hpos v hj]
      exact hwf.2 j

include hwf in
/-- A key of a bucket hashes to that bucket's place in the array. -/
theorem hash_of_mem_keys {j : Nat} (hj : j < b.buckets.length) {k : Word} (hk : k ∈ b.buckets[j].map Prod.fst) :
    bucketHash b.buckets.length k = j := by
  obtain ⟨n, hn, rfl⟩ := List.mem_map.mp hk
  refine hwf.1 j n ?_
  rwa [List.getD_eq_getElem _ _ hj]

include hwf in
/-- Two buckets share no key, and none repeats one. -/
theorem nodup_keys_flatten : (b.buckets.flatten.map Prod.fst).Nodup := by
  rw [List.map_flatten, List.nodup_flatten]
  refine ⟨fun keys hkeys => ?within, ?across⟩
  case within =>
    obtain ⟨c, hc, rfl⟩ := List.mem_map.mp hkeys
    obtain ⟨j, hj, rfl⟩ := List.mem_iff_getElem.mp hc
    have hnodup := hwf.2 j
    rwa [List.getD_eq_getElem _ _ hj] at hnodup
  case across =>
    rw [List.pairwise_map, List.pairwise_iff_getElem]
    intro i j hi hj hij k hki hkj
    have hsame : i = j := (hash_of_mem_keys hwf hi hki).symm.trans (hash_of_mem_keys hwf hj hkj)
    exact absurd hsame hij.ne

end

end BucketStore

/-- Settles O53: a `put` changes one bucket, keeping both invariants there, and the hash separates the buckets. -/
theorem bucketStoreKeepsKeysUnique : Obligations.BucketStoreKeepsKeysUnique :=
  ⟨BucketStore.init_wf, fun _ key v hpos hwf => BucketStore.put_wf hpos hwf key v,
    fun _ hwf => BucketStore.nodup_keys_flatten hwf⟩

/-! ### Refinement of the map -/

theorem BucketStore.size_put (b : BucketStore) (key : Word) (v : Byte) :
    (b.put key v).size = if (chainLookup (b.chain key) key).isSome then b.size else b.size + 1 := by
  rw [BucketStore.put]
  cases chainLookup (b.chain key) key <;> rfl

/-- The bucket store finds under every key what the map holds there, and their counters are equal. -/
structure BucketStore.Refines (b : BucketStore) (m : Memory) : Prop where
  lookup_eq : ∀ a, chainLookup (b.chain a) a = m.lookup a
  size_eq : b.size = m.size

theorem BucketStore.init_refines (n : Nat) : (BucketStore.init n).Refines Memory.empty where
  lookup_eq a := by rw [BucketStore.chain, BucketStore.getD_init]; rfl
  size_eq := rfl

namespace BucketStore.Refines

variable {b : BucketStore} {m : Memory}

/-- A `put` on both keeps the refinement, whatever the hash. -/
theorem put (h : b.Refines m) (hpos : 0 < b.buckets.length) (key : Word) (v : Byte) :
    (b.put key v).Refines (m.put key v) where
  lookup_eq a := by rw [b.lookup_put hpos, m.lookup_put, h.lookup_eq]
  size_eq := by rw [b.size_put, m.size_put, h.lookup_eq, Memory.isSome_lookup, h.size_eq]

theorem get_eq (h : b.Refines m) (a : Word) : b.get a = m.get a := by
  rw [BucketStore.get, h.lookup_eq, Memory.get]

/-- A sequence of `put`s on both keeps the refinement and the number of buckets. -/
theorem putAll (h : b.Refines m) (hpos : 0 < b.buckets.length) (ps : List (Word × Byte)) :
    (ps.foldl (fun b p => b.put p.1 p.2) b).Refines (m.putAll ps) ∧
      (ps.foldl (fun b p => b.put p.1 p.2) b).buckets.length = b.buckets.length := by
  induction ps generalizing b m with
  | nil => exact ⟨h, rfl⟩
  | cons p ps ih =>
    have hlength := b.put_length p.1 p.2
    obtain ⟨hrefines, hkept⟩ := ih (h.put hpos p.1 p.2) (hlength.symm ▸ hpos)
    exact ⟨hrefines, hkept.trans hlength⟩

end BucketStore.Refines

/-- Settles O54: fresh stores refine each other, and every `put` keeps that. -/
theorem bucketStoreRefinesTheMap : Obligations.BucketStoreRefinesTheMap := by
  intro n ps hn b m
  have hinit := BucketStore.init_length n
  obtain ⟨hrefines, hlength⟩ := (BucketStore.init_refines n).putAll (hinit.symm ▸ hn) ps
  exact ⟨hrefines.get_eq, hrefines.size_eq, hlength.trans hinit⟩

end Sys2Proof.Machine
end
